-- ==== Sys2Proof/Word.lean ====
section
/-! DEFINITION. The 16-bit word of the SIRC-1 (rules R6, R8). -/

namespace Sys2Proof

/-- A value of a general register, of a memory cell, of the shifter: bits 0 to 15 (R6). -/
abbrev Word := BitVec 16

/-- One byte of an encoded instruction image. -/
abbrev Byte := BitVec 8

end Sys2Proof
end

