-- ==== Sys2Proof/Syntax.lean ====
section
/-! DEFINITION. The decoded instruction of the spec (rule R5): mnemonic, operands, shift fields, status
override, condition. One constructor of `Instr` per row of spec/opcode_table.json. -/

namespace Sys2Proof

/-- The general registers the source names (R20). -/
inductive Reg where
  | r1 | r2 | r3 | r4 | r5 | r6 | r7
  deriving DecidableEq, Repr

/-- One value per general register. -/
structure PerReg (α : Type) where
  r1 : α
  r2 : α
  r3 : α
  r4 : α
  r5 : α
  r6 : α
  r7 : α
  deriving DecidableEq, Repr

/-- The value at a register. -/
def PerReg.get {α : Type} (p : PerReg α) : Reg → α
  | .r1 => p.r1
  | .r2 => p.r2
  | .r3 => p.r3
  | .r4 => p.r4
  | .r5 => p.r5
  | .r6 => p.r6
  | .r7 => p.r7

/-- Replace the value at one register. -/
def PerReg.set {α : Type} (p : PerReg α) (r : Reg) (x : α) : PerReg α :=
  match r with
  | .r1 => { p with r1 := x }
  | .r2 => { p with r2 := x }
  | .r3 => { p with r3 := x }
  | .r4 => { p with r4 := x }
  | .r5 => { p with r5 := x }
  | .r6 => { p with r6 := x }
  | .r7 => { p with r7 := x }

/-- Every general register, in order. -/
def Reg.all : List Reg := [.r1, .r2, .r3, .r4, .r5, .r6, .r7]

/-- The eight values of the field ST (R63). -/
inductive ShiftType where
  | noShift | lsl | lsr | asl | asr | rtl | rtr | reserved
  deriving DecidableEq, Repr

/-- The two values of the field SO (R64): where the shift count comes from. -/
inductive CountMode where
  | literal | register
  deriving DecidableEq, Repr

/-- The three shift fields ST, SO, SC of a Short Immediate or Register instruction (R60, R62). `sc` is the
raw field: a count when `so` is literal, a register number under `regIndex` when it is register (R65). -/
structure Shift where
  st : ShiftType
  so : CountMode
  sc : BitVec 4
  deriving DecidableEq, Repr

/-- What an instruction written without a postamble carries: ST = 000, SO = 0, SC = 0 (R67, D12). -/
def Shift.absent : Shift := ⟨.noShift, .literal, 0⟩

/-- The status override `[A]`, `[S]`, `[N]` (R71); `[A]` when none is written. -/
inductive Override where
  | a | s | n
  deriving DecidableEq, Repr

/-- The modifier of a LOAD: none written, or `[N]` (R152, R204). -/
inductive LoadModifier where
  | plain | n
  deriving DecidableEq, Repr

/-- Conditions (R72, R205): none written, `==`, `!=`, `NS`, `>=`. -/
inductive Cond where
  | always | eq | ne | ns | ge
  deriving DecidableEq, Repr

/-- The ALU operations of rule R182. -/
inductive AluOp where
  | add | orr | and | xor | cmp | tsa
  deriving DecidableEq, Repr

/-- The mnemonic and operands of a Short Immediate or Register instruction, apart from its shift fields and
its override: what a row of the opcode table for the field ST or SO leaves open (R100). -/
inductive Carrier where
  | addi (rd : Reg) (imm : Word)
  | addr (rd ra rb : Reg)
  | orri (rd : Reg) (imm : Word)
  | orrr (rd ra rb : Reg)
  | andi (rd : Reg) (imm : Word)
  | andr (rd ra rb : Reg)
  | xorr (rd ra rb : Reg)
  | cmpi (rd : Reg) (imm : Word)
  | cmpr (ra rb : Reg)
  | tsar (ra rb : Reg)
  deriving DecidableEq, Repr

/-- The instruction set: one constructor per row of spec/opcode_table.json. Immediates are the already
extended 16-bit values (R66), branch targets statement indexes (R206). -/
inductive Instr where
  /-- ADDI rd, #imm (R171). -/
  | addi (cond : Cond) (sro : Override) (rd : Reg) (imm : Word) (sh : Shift)
  /-- ADDR rd, ra, rb (R172). -/
  | addr (cond : Cond) (sro : Override) (rd ra rb : Reg) (sh : Shift)
  /-- ORRI rd, #imm (R173). -/
  | orri (cond : Cond) (sro : Override) (rd : Reg) (imm : Word) (sh : Shift)
  /-- ORRR rd, ra, rb (R174). -/
  | orrr (cond : Cond) (sro : Override) (rd ra rb : Reg) (sh : Shift)
  /-- ANDI rd, #imm (R175). -/
  | andi (cond : Cond) (sro : Override) (rd : Reg) (imm : Word) (sh : Shift)
  /-- ANDR rd, ra, rb (R176). -/
  | andr (cond : Cond) (sro : Override) (rd ra rb : Reg) (sh : Shift)
  /-- XORR rd, ra, rb (R177). -/
  | xorr (cond : Cond) (sro : Override) (rd ra rb : Reg) (sh : Shift)
  /-- CMPI rd, #imm (R178). -/
  | cmpi (cond : Cond) (sro : Override) (rd : Reg) (imm : Word) (sh : Shift)
  /-- CMPR ra, rb (R179). -/
  | cmpr (cond : Cond) (sro : Override) (ra rb : Reg) (sh : Shift)
  /-- TSAR ra, rb (R180). -/
  | tsar (cond : Cond) (sro : Override) (ra rb : Reg) (sh : Shift)
  /-- LOAD rd, rs (R200). -/
  | loadReg (mode : LoadModifier) (rd rs : Reg)
  /-- LOAD rd, #imm (R201). -/
  | loadImm (mode : LoadModifier) (rd : Reg) (imm : Word)
  /-- LOAD rd, (#off, a)+ (R203). DESIGN CHOICE (log 7): `off` is not signed; the source does not say. -/
  | loadInd (mode : LoadModifier) (rd : Reg) (off : Nat)
  /-- BRAN|cond label (R206). -/
  | bran (cond : Cond) (target : Nat)
  /-- SHFT rd, shift (R181). -/
  | shft (rd : Reg) (sh : Shift)
  /-- Row ST:(none): an instruction whose ST is 000 (R120). -/
  | stNone (carrier : Carrier) (sro : Override) (so : CountMode) (sc : BitVec 4)
  /-- Row ST:LSL: an instruction whose ST is 001 (R121). -/
  | stLsl (carrier : Carrier) (sro : Override) (so : CountMode) (sc : BitVec 4)
  /-- Row ST:LSR: an instruction whose ST is 010 (R122). -/
  | stLsr (carrier : Carrier) (sro : Override) (so : CountMode) (sc : BitVec 4)
  /-- Row ST:ASL: an instruction whose ST is 011 (R123). -/
  | stAsl (carrier : Carrier) (sro : Override) (so : CountMode) (sc : BitVec 4)
  /-- Row ST:ASR: an instruction whose ST is 100 (R124). -/
  | stAsr (carrier : Carrier) (sro : Override) (so : CountMode) (sc : BitVec 4)
  /-- Row ST:RTL: an instruction whose ST is 101 (R125). -/
  | stRtl (carrier : Carrier) (sro : Override) (so : CountMode) (sc : BitVec 4)
  /-- Row ST:RTR: an instruction whose ST is 110 (R126). -/
  | stRtr (carrier : Carrier) (sro : Override) (so : CountMode) (sc : BitVec 4)
  /-- Row ST:(reserved): an instruction whose ST is 111 (R127). -/
  | stReserved (carrier : Carrier) (sro : Override) (so : CountMode) (sc : BitVec 4)
  /-- Row SO:literal-count: an instruction whose SO is 0 (R105). -/
  | soLiteral (carrier : Carrier) (sro : Override) (st : ShiftType) (sc : BitVec 4)
  /-- Row SO:register-count: an instruction whose SO is 1 (R105). -/
  | soRegister (carrier : Carrier) (sro : Override) (st : ShiftType) (sc : BitVec 4)
  deriving DecidableEq, Repr

/-- The instruction with the given operands, override and shift fields, unconditional. -/
def Carrier.instr (sro : Override) (sh : Shift) : Carrier → Instr
  | .addi rd imm => .addi .always sro rd imm sh
  | .addr rd ra rb => .addr .always sro rd ra rb sh
  | .orri rd imm => .orri .always sro rd imm sh
  | .orrr rd ra rb => .orrr .always sro rd ra rb sh
  | .andi rd imm => .andi .always sro rd imm sh
  | .andr rd ra rb => .andr .always sro rd ra rb sh
  | .xorr rd ra rb => .xorr .always sro rd ra rb sh
  | .cmpi rd imm => .cmpi .always sro rd imm sh
  | .cmpr ra rb => .cmpr .always sro ra rb sh
  | .tsar ra rb => .tsar .always sro ra rb sh

/-- The instruction whose words these are: SHFT is ORRI[S] rd, #0 (R75), and a row of the field ST or SO
is the instruction it is a field of. -/
def Instr.core : Instr → Instr
  | .addi c o rd imm sh => .addi c o rd imm sh
  | .addr c o rd ra rb sh => .addr c o rd ra rb sh
  | .orri c o rd imm sh => .orri c o rd imm sh
  | .orrr c o rd ra rb sh => .orrr c o rd ra rb sh
  | .andi c o rd imm sh => .andi c o rd imm sh
  | .andr c o rd ra rb sh => .andr c o rd ra rb sh
  | .xorr c o rd ra rb sh => .xorr c o rd ra rb sh
  | .cmpi c o rd imm sh => .cmpi c o rd imm sh
  | .cmpr c o ra rb sh => .cmpr c o ra rb sh
  | .tsar c o ra rb sh => .tsar c o ra rb sh
  | .loadReg m rd rs => .loadReg m rd rs
  | .loadImm m rd imm => .loadImm m rd imm
  | .loadInd m rd off => .loadInd m rd off
  | .bran c t => .bran c t
  | .shft rd sh => .orri .always .s rd 0 sh
  | .stNone h o so sc => h.instr o ⟨.noShift, so, sc⟩
  | .stLsl h o so sc => h.instr o ⟨.lsl, so, sc⟩
  | .stLsr h o so sc => h.instr o ⟨.lsr, so, sc⟩
  | .stAsl h o so sc => h.instr o ⟨.asl, so, sc⟩
  | .stAsr h o so sc => h.instr o ⟨.asr, so, sc⟩
  | .stRtl h o so sc => h.instr o ⟨.rtl, so, sc⟩
  | .stRtr h o so sc => h.instr o ⟨.rtr, so, sc⟩
  | .stReserved h o so sc => h.instr o ⟨.reserved, so, sc⟩
  | .soLiteral h o st sc => h.instr o ⟨st, .literal, sc⟩
  | .soRegister h o st sc => h.instr o ⟨st, .register, sc⟩

/-- The mnemonics that have an encoding of their own (R76 group c). -/
inductive OpName where
  | addi | addr | orri | orrr | andi | andr | xorr | cmpi | cmpr | tsar | loadReg | loadImm | loadInd | bran
  deriving DecidableEq, Repr

/-- Every encoded mnemonic, in the table's order. -/
def OpName.all : List OpName :=
  [.addi, .addr, .orri, .orrr, .andi, .andr, .xorr, .cmpi, .cmpr, .tsar, .loadReg, .loadImm, .loadInd, .bran]

/-- Every status override. -/
def Override.all : List Override := [.a, .s, .n]

/-- Every condition. -/
def Cond.all : List Cond := [.always, .eq, .ne, .ns, .ge]

end Sys2Proof
end

