-- ==== Sys2Proof/Config.lean ====
section
/-! DEFINITION. What the spec leaves open: the parameters of rule R7 as plain data, the binary layout of rule
R62, and the free values (opaque constants without a body). -/

namespace Sys2Proof

/-- The parameter `countFromReg`: the count taken from a register value of 16 or more (R107, D6). -/
inductive CountPolicy where
  /-- The default of R107: the step ends with `ShiftCountOutOfRange`. -/
  | fault
  /-- The low four bits of the value. -/
  | lowFour
  /-- Clamp to 15. -/
  | clamp
  /-- The full count, each shift type extended naturally. -/
  | full
  deriving DecidableEq, Repr

/-- One value per ALU operation. -/
structure PerOp (α : Type) where
  add : α
  orr : α
  and : α
  xor : α
  cmp : α
  tsa : α
  deriving DecidableEq, Repr

/-- The value at an operation. -/
def PerOp.get {α : Type} (p : PerOp α) : AluOp → α
  | .add => p.add
  | .orr => p.orr
  | .and => p.and
  | .xor => p.xor
  | .cmp => p.cmp
  | .tsa => p.tsa

/-- A flag as a function of the arguments of `AluCV(op, sv, b, oldC, oldV)`, written as data: bits of `sv`, of `b`
and of the ALU result, the old flags, the carry-out of `sv + b` and the borrow of `sv - b`, combined. Every function
of the arguments can be written so (log 10). -/
inductive FlagExpr where
  | lit (x : Bool)
  | oldC
  | oldV
  | sv (i : Fin 16)
  | second (i : Fin 16)
  | res (i : Fin 16)
  | carry
  | borrow
  | not (e : FlagExpr)
  | and (e f : FlagExpr)
  | xor (e f : FlagExpr)
  deriving DecidableEq, Repr

/-- `AluCV` of one operation, supplied as data. -/
structure CVRule where
  c : FlagExpr
  v : FlagExpr
  deriving DecidableEq, Repr

/-- The spec's default `AluCV(ADD)` (R182, K3): the unsigned carry-out; `sv[15] = b[15]` and `r[15] != sv[15]`. -/
def CVRule.standardAdd : CVRule :=
  ⟨.carry, .and (.not (.xor (.sv 15) (.second 15))) (.xor (.res 15) (.sv 15))⟩

/-- The parameter `srBit`: the bit position of each flag in the status register (R24). -/
structure SrBits where
  c : Nat
  z : Nat
  n : Nat
  v : Nat
  deriving DecidableEq, Repr

/-- The parameter `loadFlags`: what a LOAD without `[N]` does to the flags (R204, D29). -/
inductive LoadFlagsPolicy where
  /-- The default of R204: each flag becomes a draw. -/
  | drawn
  /-- The flags keep their values. -/
  | kept
  deriving DecidableEq, Repr

/-- The open parameters of R7, those of the binary layer apart (`Layout`). -/
structure Params where
  /-- The 4-bit number of each register name (D4). -/
  regIndex : PerReg (BitVec 4)
  countFromReg : CountPolicy
  /-- `AluCV` of each operation; `none`: not supplied, the free value `Config.aluCV` (R182). -/
  aluCV : PerOp (Option CVRule)
  /-- The test behind `>=` as a truth table, bit number 8·C + 4·Z + 2·N + V; `none`: not supplied (R205,
  log 13). -/
  condGE : Option (BitVec 16)
  loadFlags : LoadFlagsPolicy
  /-- `AWIDTH`: the width of an address (R40). -/
  awidth : Nat
  /-- `postIncStep`: the post-increment of `(#off, a)+` (R203). -/
  postIncStep : Nat
  /-- `MemWordBits`: the width of a memory cell (R40, log 5). -/
  memWordBits : Nat
  /-- `srBit` (R24, log 32). -/
  srBit : SrBits
  deriving DecidableEq, Repr

/-- The spec's defaults where it gives one (93_implementation_defined.md, part 3), the admitted `MemWordBits = 16`
(R40); PRESUMED: register numbers by K8 (log 8), AWIDTH 24 by K7 (log 6), flag positions by K8 (log 32). -/
def Params.initial : Params where
  regIndex := ⟨0, 1, 2, 3, 4, 5, 6⟩
  countFromReg := .fault
  aluCV := ⟨some .standardAdd, none, none, none, none, none⟩
  condGE := none
  loadFlags := .drawn
  awidth := 24
  postIncStep := 1
  memWordBits := 16
  srBit := ⟨2, 0, 1, 3⟩

/-- `regIndex` is injective (D4). -/
def Params.regIndexInjective (p : Params) : Bool :=
  decide ((Reg.all.map p.regIndex.get).Nodup)

/-- FREE VALUE: the n-th `any1()` draw of a run (R9). Nothing is known of it. -/
opaque Config.freeBit : Nat → Bool

/-- FREE VALUE: `AluCV(op, sv, b, oldC, oldV) = (C, V)` where it is not supplied (R182, U7). -/
opaque Config.aluCV : AluOp → Word → Word → Bool → Bool → Bool × Bool

/-- DESIGN CHOICE (log 4): what a memory cell that is not listed reads as. -/
def Config.unlistedCell : Nat := 0

/-- A field of the instruction word: bits `pos` to `pos + width - 1` (R62). -/
structure BitField where
  pos : Nat
  width : Nat
  deriving DecidableEq, Repr

/-- The parameter `simmExt`: how the short immediate is widened (R66). -/
inductive ImmExt where
  | zero | sign
  deriving DecidableEq, Repr

/-- The parameter `byteOrder` of an instruction image (R42). -/
inductive ByteOrder where
  | little | big
  deriving DecidableEq, Repr

/-- The parameters of the binary layer (R7, R62, R76): `Layout`, `ILEN`, `opcodeOf`, `regIndex`,
`SIMM_BITS` (the width of `imm`), `simmExt`, `overrideCode`, the condition codes and `byteOrder`. DESIGN CHOICE (log
23): the fields `rs`, `imm16`, `off`, `target` of LOAD and BRAN, whose formats the source does not name. -/
structure Layout where
  bits : Nat
  /-- `ILEN`: address units per instruction (R22). -/
  ilen : Nat
  byteOrder : ByteOrder
  op : BitField
  r1 : BitField
  r2 : BitField
  r3 : BitField
  imm : BitField
  so : BitField
  st : BitField
  sc : BitField
  sro : BitField
  cond : BitField
  rs : BitField
  imm16 : BitField
  off : BitField
  target : BitField
  immExt : ImmExt
  regIndex : PerReg (BitVec 4)
  opcodeOf : OpName → Nat
  overrideCode : Override → Nat
  condCode : Cond → Nat

end Sys2Proof
end

