-- ==== Sys2Proof/WellFormed.lean ====
section
/-! DEFINITION. The refusals that are decided when a decoded program is checked, before a run (rule R221). The
refusals of assembler text (register names, postamble on LOAD, ROL, unknown mnemonic) are in
Machine/Assembler.lean; a term of `Instr` cannot express them. -/

namespace Sys2Proof

/-- Why a decoded instruction is refused. Every one errs toward unprovable (safe). -/
inductive IllFormed where
  /-- A short immediate outside 0..127 (R66). -/
  | immediateOutOfRange
  /-- A condition on an instruction other than BRAN (R207). -/
  | conditionOnNonBranch
  /-- The condition `>=` unless `condGE` and `AluCV(CMP)` are supplied (R205). -/
  | conditionGeNotSupplied
  /-- `LOAD rd, (#off, a)+` with `off` not 0 (R203). -/
  | offsetNotZero
  /-- SO = 1, ST not 000, and SC is the number of no admitted register (R20, R108). -/
  | countRegisterNotAdmitted
  deriving DecidableEq, Repr

/-- The register whose number under `regIndex` is `n` (R65). -/
def regOfNumber (ix : PerReg (BitVec 4)) (n : BitVec 4) : Option Reg :=
  Reg.all.find? (fun r => ix.get r == n)

/-- A condition suffix on a non-branch is refused (R207). -/
def checkNonBranch : Cond → Option IllFormed
  | .always => none
  | _ => some .conditionOnNonBranch

/-- An assembly immediate is 0 to 127 (R66). -/
def checkImm (imm : Word) : Option IllFormed :=
  if imm.toNat ≤ 127 then none else some .immediateOutOfRange

/-- The count register is read only when SO = 1 and ST is not 000 (R108); with ST = 111 the fault comes first
(R222), so nothing is refused. -/
def checkShift (p : Params) (sh : Shift) : Option IllFormed :=
  match sh.st, sh.so with
  | .noShift, _ => none
  | .reserved, _ => none
  | _, .literal => none
  | _, .register => if (regOfNumber p.regIndex sh.sc).isSome then none else some .countRegisterNotAdmitted

/-- The immediate of a Short Immediate carrier. -/
def checkCarrier : Carrier → Option IllFormed
  | .addi _ imm => checkImm imm
  | .orri _ imm => checkImm imm
  | .andi _ imm => checkImm imm
  | .cmpi _ imm => checkImm imm
  | .addr _ _ _ => none
  | .orrr _ _ _ => none
  | .andr _ _ _ => none
  | .xorr _ _ _ => none
  | .cmpr _ _ => none
  | .tsar _ _ => none

/-- The test behind `>=`, there only if both `condGE` and `AluCV(CMP)` are supplied (R205). -/
def Params.geTest (p : Params) : Option (BitVec 16) :=
  match p.condGE, p.aluCV.cmp with
  | some t, some _ => some t
  | _, _ => none

/-- A branch condition is refused only when it is `>=` and its test is not supplied (R205). -/
def checkBranchCond (p : Params) : Cond → Option IllFormed
  | .ge => if p.geTest.isSome then none else some .conditionGeNotSupplied
  | _ => none

/-- The check of one instruction of the Short Immediate format. Where several refusals apply, DESIGN CHOICE (log 19):
the condition is reported first, then the immediate, then the count register; R221 gives no order. -/
def checkShortImm (p : Params) (c : Cond) (imm : Word) (sh : Shift) : Option IllFormed :=
  (checkNonBranch c).or ((checkImm imm).or (checkShift p sh))

/-- The check of one instruction of the Register format, in the same order (log 19). -/
def checkRegister (p : Params) (c : Cond) (sh : Shift) : Option IllFormed :=
  (checkNonBranch c).or (checkShift p sh)

/-- The first reason to refuse an instruction, in the model's order (log 19); `none` if it is admitted (R221). -/
def Instr.illFormed? (p : Params) : Instr → Option IllFormed
  | .addi c _ _ imm sh => checkShortImm p c imm sh
  | .addr c _ _ _ _ sh => checkRegister p c sh
  | .orri c _ _ imm sh => checkShortImm p c imm sh
  | .orrr c _ _ _ _ sh => checkRegister p c sh
  | .andi c _ _ imm sh => checkShortImm p c imm sh
  | .andr c _ _ _ _ sh => checkRegister p c sh
  | .xorr c _ _ _ _ sh => checkRegister p c sh
  | .cmpi c _ _ imm sh => checkShortImm p c imm sh
  | .cmpr c _ _ _ sh => checkRegister p c sh
  | .tsar c _ _ _ sh => checkRegister p c sh
  | .loadReg _ _ _ => none
  | .loadImm _ _ _ => none
  | .loadInd _ _ off => if off = 0 then none else some .offsetNotZero
  | .bran c _ => checkBranchCond p c
  | .shft _ sh => checkShift p sh
  | .stNone h _ so sc => (checkCarrier h).or (checkShift p ⟨.noShift, so, sc⟩)
  | .stLsl h _ so sc => (checkCarrier h).or (checkShift p ⟨.lsl, so, sc⟩)
  | .stLsr h _ so sc => (checkCarrier h).or (checkShift p ⟨.lsr, so, sc⟩)
  | .stAsl h _ so sc => (checkCarrier h).or (checkShift p ⟨.asl, so, sc⟩)
  | .stAsr h _ so sc => (checkCarrier h).or (checkShift p ⟨.asr, so, sc⟩)
  | .stRtl h _ so sc => (checkCarrier h).or (checkShift p ⟨.rtl, so, sc⟩)
  | .stRtr h _ so sc => (checkCarrier h).or (checkShift p ⟨.rtr, so, sc⟩)
  | .stReserved h _ so sc => (checkCarrier h).or (checkShift p ⟨.reserved, so, sc⟩)
  | .soLiteral h _ st sc => (checkCarrier h).or (checkShift p ⟨st, .literal, sc⟩)
  | .soRegister h _ st sc => (checkCarrier h).or (checkShift p ⟨st, .register, sc⟩)

/-- The instruction is admitted. -/
def Instr.wellFormed (p : Params) (i : Instr) : Bool := (i.illFormed? p).isNone

/-- A whole program is checked before a run: every instruction is admitted and every branch goes to a
statement of the program or to its end (R206, R221). -/
def Instr.targetWithin (n : Nat) : Instr → Bool
  | .addi _ _ _ _ _ => true
  | .addr _ _ _ _ _ _ => true
  | .orri _ _ _ _ _ => true
  | .orrr _ _ _ _ _ _ => true
  | .andi _ _ _ _ _ => true
  | .andr _ _ _ _ _ _ => true
  | .xorr _ _ _ _ _ _ => true
  | .cmpi _ _ _ _ _ => true
  | .cmpr _ _ _ _ _ => true
  | .tsar _ _ _ _ _ => true
  | .loadReg _ _ _ => true
  | .loadImm _ _ _ => true
  | .loadInd _ _ _ => true
  | .bran _ t => decide (t ≤ n)
  | .shft _ _ => true
  | .stNone _ _ _ _ => true
  | .stLsl _ _ _ _ => true
  | .stLsr _ _ _ _ => true
  | .stAsl _ _ _ _ => true
  | .stAsr _ _ _ _ => true
  | .stRtl _ _ _ _ => true
  | .stRtr _ _ _ _ => true
  | .stReserved _ _ _ _ => true
  | .soLiteral _ _ _ _ => true
  | .soRegister _ _ _ _ => true

/-- The program check of R221. -/
def programChecked (p : Params) (prog : List Instr) : Bool :=
  prog.all (fun i => i.wellFormed p && i.targetWithin prog.length)

end Sys2Proof
end

