-- ==== Sys2Proof/Decode.lean ====
section
/-! DEFINITION. The binary layer (rules R60 to R67, R76): a decoder and an encoder, both parametric in the open
`Layout`, and a default layout (K1, PRESUMED; its opcode numbers and codes DESIGN CHOICE, log 23). No step of the
machine depends on a layout. -/

namespace Sys2Proof

/-- Why the decoder rejects a word. -/
inductive DecodeError where
  /-- Bits beyond the instruction length. -/
  | tooLong
  /-- A byte image under a layout whose instruction is not a whole number of bytes (log 36). -/
  | notWholeBytes
  /-- Fewer bytes than one instruction. -/
  | truncated
  /-- OP is the number of no mnemonic under `opcodeOf` (R68). -/
  | unknownOpcode
  /-- A register field names no admitted register under `regIndex` (R20, D4). -/
  | registerNotAdmitted (number : Nat)
  /-- SRO holds no code of `overrideCode` (D16). -/
  | unknownOverride
  /-- COND holds no condition code (D17). -/
  | unknownCondition
  /-- `[S]` on a LOAD (R204). -/
  | overrideOnLoad
  /-- A compare or test whose R1 is not its R2: the three-operand form is not shown (R179, R180). -/
  | threeOperandCompare
  /-- A bit outside the fields of the instruction's format is set. -/
  | strayBits
  deriving DecidableEq, Repr

/-! ### Codes the source fixes -/

/-- The 3-bit code of a shift type (R63). -/
def ShiftType.code : ShiftType → Nat
  | .noShift => 0b000
  | .lsl => 0b001
  | .lsr => 0b010
  | .asl => 0b011
  | .asr => 0b100
  | .rtl => 0b101
  | .rtr => 0b110
  | .reserved => 0b111

/-- The shift type of a 3-bit code (R63). -/
def ShiftType.ofCode (n : Nat) : ShiftType :=
  match n % 8 with
  | 0 => .noShift
  | 1 => .lsl
  | 2 => .lsr
  | 3 => .asl
  | 4 => .asr
  | 5 => .rtl
  | 6 => .rtr
  | _ => .reserved

/-- The 1-bit code of the Shift Operand field (R64). -/
def CountMode.code : CountMode → Nat
  | .literal => 0
  | .register => 1

/-- The mode of a 1-bit Shift Operand field (R64). -/
def CountMode.ofCode (n : Nat) : CountMode := if n % 2 = 0 then .literal else .register

/-! ### Fields of a word -/

/-- The value of a field of a word. -/
def BitField.extract (f : BitField) (w : Nat) : Nat := (w >>> f.pos) % 2 ^ f.width

/-- The word whose fields hold the given values and whose other bits are 0. -/
def placeAll : List (BitField × Nat) → Nat
  | [] => 0
  | (f, v) :: rest => (v <<< f.pos) ||| placeAll rest

/-- Two fields share no bit. -/
def BitField.disjoint (f g : BitField) : Bool :=
  decide (f.pos + f.width ≤ g.pos) || decide (g.pos + g.width ≤ f.pos)

/-- The fields lie inside the word and share no bit. -/
def fieldsApart (bits : Nat) (fs : List BitField) : Bool :=
  decide (fs.Pairwise fun f g => f.disjoint g = true) && fs.all fun f => decide (f.pos + f.width ≤ bits)

/-- A list of codes: pairwise different, each fitting its field. -/
def codesFit (width : Nat) (codes : List Nat) : Bool :=
  decide codes.Nodup && codes.all fun c => decide (c < 2 ^ width)

/-- What makes a layout usable: the widths R62 gives, fields of one format apart and inside the word, injective
codes that fit their fields. Instruction length and the width of the short immediate are open and not bounded (D2, D5).
DEDUCED (log 23): that fields are apart and codes injective, without which no decoder exists. DESIGN CHOICE (log 23):
the fields of LOAD and BRAN, with 4 bits for `rs` and 16 for `imm16`. -/
def Layout.valid (L : Layout) : Bool :=
  codesFit L.op.width (OpName.all.map L.opcodeOf) &&
  codesFit L.sro.width (Override.all.map L.overrideCode) &&
  codesFit L.cond.width (Cond.all.map L.condCode) &&
  decide ((Reg.all.map L.regIndex.get).Nodup) &&
  decide (L.r1.width = 4) && decide (L.r2.width = 4) && decide (L.r3.width = 4) && decide (L.rs.width = 4) &&
  decide (L.so.width = 1) && decide (L.st.width = 3) && decide (L.sc.width = 4) &&
  decide (L.imm16.width = 16) &&
  fieldsApart L.bits [L.op, L.r1, L.imm, L.so, L.st, L.sc, L.sro, L.cond] &&
  fieldsApart L.bits [L.op, L.r1, L.r2, L.r3, L.so, L.st, L.sc, L.sro, L.cond] &&
  fieldsApart L.bits [L.op, L.r1, L.rs, L.sro] &&
  fieldsApart L.bits [L.op, L.r1, L.imm16, L.sro] &&
  fieldsApart L.bits [L.op, L.r1, L.off, L.sro] &&
  fieldsApart L.bits [L.op, L.cond, L.target]

/-- The address of statement `k` in address units (R22): `pc` times `ILEN`. -/
def Layout.addressOf (L : Layout) (k : Nat) : Nat := k * L.ilen

/-- The statement at an address, if an instruction starts there: the alignment of `pc` is part of `ILEN` (R43). -/
def Layout.statementAt (L : Layout) (addr : Nat) : Option Nat :=
  if L.ilen = 0 then none else if addr % L.ilen = 0 then some (addr / L.ilen) else none

/-- DESIGN CHOICE (log 36): byte images exist only for layouts of a whole number of bytes; R61 and D2 leave the
instruction length open. -/
def Layout.wholeBytes (L : Layout) : Bool := decide (L.bits % 8 = 0)

/-! ### The encoder -/

/-- The code of a register name. -/
def Layout.regCode (L : Layout) (r : Reg) : Nat := (L.regIndex.get r).toNat

/-- The override code of a LOAD: without a modifier it carries the code of `[A]`, the default (log 25). -/
def Layout.loadCode (L : Layout) : LoadModifier → Nat
  | .plain => L.overrideCode .a
  | .n => L.overrideCode .n

/-- The shift fields (R62). -/
def Layout.shiftFields (L : Layout) (sh : Shift) : List (BitField × Nat) :=
  [(L.so, sh.so.code), (L.st, sh.st.code), (L.sc, sh.sc.toNat)]

/-- The fields of the Short Immediate format (R62). -/
def Layout.shortImm (L : Layout) (o : OpName) (c : Cond) (sro : Override) (rd : Reg) (imm : Word) (sh : Shift) :
    List (BitField × Nat) :=
  [(L.op, L.opcodeOf o), (L.r1, L.regCode rd), (L.imm, imm.toNat % 2 ^ L.imm.width)] ++ L.shiftFields sh ++
    [(L.sro, L.overrideCode sro), (L.cond, L.condCode c)]

/-- The fields of the Register format (R62). -/
def Layout.register (L : Layout) (o : OpName) (c : Cond) (sro : Override) (rd ra rb : Reg) (sh : Shift) :
    List (BitField × Nat) :=
  [(L.op, L.opcodeOf o), (L.r1, L.regCode rd), (L.r2, L.regCode ra), (L.r3, L.regCode rb)] ++ L.shiftFields sh ++
    [(L.sro, L.overrideCode sro), (L.cond, L.condCode c)]

/-- The fields of an unconditional Short Immediate or Register instruction. -/
def Layout.carrierFields (L : Layout) (sro : Override) (sh : Shift) : Carrier → List (BitField × Nat)
  | .addi rd imm => L.shortImm .addi .always sro rd imm sh
  | .addr rd ra rb => L.register .addr .always sro rd ra rb sh
  | .orri rd imm => L.shortImm .orri .always sro rd imm sh
  | .orrr rd ra rb => L.register .orrr .always sro rd ra rb sh
  | .andi rd imm => L.shortImm .andi .always sro rd imm sh
  | .andr rd ra rb => L.register .andr .always sro rd ra rb sh
  | .xorr rd ra rb => L.register .xorr .always sro rd ra rb sh
  | .cmpi rd imm => L.shortImm .cmpi .always sro rd imm sh
  | .cmpr ra rb => L.register .cmpr .always sro ra ra rb sh
  | .tsar ra rb => L.register .tsar .always sro ra ra rb sh

/-- The fields of an instruction with their values (the rows of group c of the opcode table, R76). SHFT has the
fields of its expansion (R75); a row of ST or SO those of the instruction it is a field of. DESIGN CHOICE (log 23): the
fields of LOAD and BRAN, and that the target field of BRAN holds the statement index itself; how a target is encoded is
not in the source (R206). -/
def Layout.fieldsOf (L : Layout) : Instr → List (BitField × Nat)
  | .addi c o rd imm sh => L.shortImm .addi c o rd imm sh
  | .addr c o rd ra rb sh => L.register .addr c o rd ra rb sh
  | .orri c o rd imm sh => L.shortImm .orri c o rd imm sh
  | .orrr c o rd ra rb sh => L.register .orrr c o rd ra rb sh
  | .andi c o rd imm sh => L.shortImm .andi c o rd imm sh
  | .andr c o rd ra rb sh => L.register .andr c o rd ra rb sh
  | .xorr c o rd ra rb sh => L.register .xorr c o rd ra rb sh
  | .cmpi c o rd imm sh => L.shortImm .cmpi c o rd imm sh
  | .cmpr c o ra rb sh => L.register .cmpr c o ra ra rb sh
  | .tsar c o ra rb sh => L.register .tsar c o ra ra rb sh
  | .loadReg m rd rs => [(L.op, L.opcodeOf .loadReg), (L.r1, L.regCode rd), (L.rs, L.regCode rs), (L.sro, L.loadCode m)]
  | .loadImm m rd imm => [(L.op, L.opcodeOf .loadImm), (L.r1, L.regCode rd), (L.imm16, imm.toNat), (L.sro, L.loadCode m)]
  | .loadInd m rd off => [(L.op, L.opcodeOf .loadInd), (L.r1, L.regCode rd), (L.off, off), (L.sro, L.loadCode m)]
  | .bran c t => [(L.op, L.opcodeOf .bran), (L.cond, L.condCode c), (L.target, t)]
  | .shft rd sh => L.shortImm .orri .always .s rd 0 sh
  | .stNone h o so sc => L.carrierFields o ⟨.noShift, so, sc⟩ h
  | .stLsl h o so sc => L.carrierFields o ⟨.lsl, so, sc⟩ h
  | .stLsr h o so sc => L.carrierFields o ⟨.lsr, so, sc⟩ h
  | .stAsl h o so sc => L.carrierFields o ⟨.asl, so, sc⟩ h
  | .stAsr h o so sc => L.carrierFields o ⟨.asr, so, sc⟩ h
  | .stRtl h o so sc => L.carrierFields o ⟨.rtl, so, sc⟩ h
  | .stRtr h o so sc => L.carrierFields o ⟨.rtr, so, sc⟩ h
  | .stReserved h o so sc => L.carrierFields o ⟨.reserved, so, sc⟩ h
  | .soLiteral h o st sc => L.carrierFields o ⟨st, .literal, sc⟩ h
  | .soRegister h o st sc => L.carrierFields o ⟨st, .register, sc⟩ h

/-- The word of an instruction. -/
def encode (L : Layout) (i : Instr) : Nat := placeAll (L.fieldsOf i)

/-- The 16-bit value of a short immediate field (R66, `simmExt`). -/
def Layout.extendImm (L : Layout) (v : Nat) : Word :=
  match L.immExt with
  | .zero => BitVec.ofNat 16 v
  | .sign => (BitVec.ofNat L.imm.width v).signExtend 16

/-- A short immediate the field can hold. -/
def Layout.immFits (L : Layout) (imm : Word) : Bool := L.extendImm (imm.toNat % 2 ^ L.imm.width) == imm

/-- The short immediate of a carrier fits. -/
def Layout.carrierFits (L : Layout) : Carrier → Bool
  | .addi _ imm => L.immFits imm
  | .orri _ imm => L.immFits imm
  | .andi _ imm => L.immFits imm
  | .cmpi _ imm => L.immFits imm
  | .addr _ _ _ => true
  | .orrr _ _ _ => true
  | .andr _ _ _ => true
  | .xorr _ _ _ => true
  | .cmpr _ _ => true
  | .tsar _ _ => true

/-- Every literal of the instruction fits its field. -/
def Layout.fits (L : Layout) : Instr → Bool
  | .addi _ _ _ imm _ => L.immFits imm
  | .addr _ _ _ _ _ _ => true
  | .orri _ _ _ imm _ => L.immFits imm
  | .orrr _ _ _ _ _ _ => true
  | .andi _ _ _ imm _ => L.immFits imm
  | .andr _ _ _ _ _ _ => true
  | .xorr _ _ _ _ _ _ => true
  | .cmpi _ _ _ imm _ => L.immFits imm
  | .cmpr _ _ _ _ _ => true
  | .tsar _ _ _ _ _ => true
  | .loadReg _ _ _ => true
  | .loadImm _ _ _ => true
  | .loadInd _ _ off => decide (off < 2 ^ L.off.width)
  | .bran _ t => decide (t < 2 ^ L.target.width)
  | .shft _ _ => true
  | .stNone h _ _ _ => L.carrierFits h
  | .stLsl h _ _ _ => L.carrierFits h
  | .stLsr h _ _ _ => L.carrierFits h
  | .stAsl h _ _ _ => L.carrierFits h
  | .stAsr h _ _ _ => L.carrierFits h
  | .stRtl h _ _ _ => L.carrierFits h
  | .stRtr h _ _ _ => L.carrierFits h
  | .stReserved h _ _ _ => L.carrierFits h
  | .soLiteral h _ _ _ => L.carrierFits h
  | .soRegister h _ _ _ => L.carrierFits h

/-! ### The decoder -/

/-- The register of a register field. -/
def Layout.getReg (L : Layout) (f : BitField) (w : Nat) : Except DecodeError Reg :=
  match regOfNumber L.regIndex (BitVec.ofNat 4 (f.extract w)) with
  | some r => .ok r
  | none => .error (.registerNotAdmitted (f.extract w))

/-- The status override of a word. -/
def Layout.getOverride (L : Layout) (w : Nat) : Except DecodeError Override :=
  match Override.all.find? (fun o => L.overrideCode o == L.sro.extract w) with
  | some o => .ok o
  | none => .error .unknownOverride

/-- The modifier of a LOAD word. -/
def Layout.getLoadModifier (L : Layout) (w : Nat) : Except DecodeError LoadModifier :=
  match L.getOverride w with
  | .ok .a => .ok .plain
  | .ok .n => .ok .n
  | .ok .s => .error .overrideOnLoad
  | .error e => .error e

/-- The condition of a word. -/
def Layout.getCond (L : Layout) (w : Nat) : Except DecodeError Cond :=
  match Cond.all.find? (fun c => L.condCode c == L.cond.extract w) with
  | some c => .ok c
  | none => .error .unknownCondition

/-- The shift fields of a word (R63 to R65). -/
def Layout.getShift (L : Layout) (w : Nat) : Shift :=
  ⟨ShiftType.ofCode (L.st.extract w), CountMode.ofCode (L.so.extract w), BitVec.ofNat 4 (L.sc.extract w)⟩

/-- A word of the Short Immediate format. -/
def Layout.parseShortImm (L : Layout) (mk : Cond → Override → Reg → Word → Shift → Instr) (w : Nat) :
    Except DecodeError Instr := do
  let c ← L.getCond w
  let o ← L.getOverride w
  let rd ← L.getReg L.r1 w
  return mk c o rd (L.extendImm (L.imm.extract w)) (L.getShift w)

/-- A word of the Register format. -/
def Layout.parseRegister (L : Layout) (mk : Cond → Override → Reg → Reg → Reg → Shift → Instr) (w : Nat) :
    Except DecodeError Instr := do
  let c ← L.getCond w
  let o ← L.getOverride w
  let rd ← L.getReg L.r1 w
  let ra ← L.getReg L.r2 w
  let rb ← L.getReg L.r3 w
  return mk c o rd ra rb (L.getShift w)

/-- A word of a compare or test in Register format: R1 repeats R2 (R179, R180). -/
def Layout.parseCompare (L : Layout) (mk : Cond → Override → Reg → Reg → Shift → Instr) (w : Nat) :
    Except DecodeError Instr := do
  let c ← L.getCond w
  let o ← L.getOverride w
  let rd ← L.getReg L.r1 w
  let ra ← L.getReg L.r2 w
  let rb ← L.getReg L.r3 w
  if rd = ra then return mk c o ra rb (L.getShift w) else throw .threeOperandCompare

/-- Read the fields of a word by its opcode. The offset of the indirect LOAD is read without a sign (log 7).
DESIGN CHOICE (log 23): the target of BRAN is read as an unsigned absolute statement index, neither relative nor an
address; its encoding is not in the source (R206). -/
def Layout.parse (L : Layout) (w : Nat) : Except DecodeError Instr :=
  match OpName.all.find? (fun o => L.opcodeOf o == L.op.extract w) with
  | none => .error .unknownOpcode
  | some .addi => L.parseShortImm .addi w
  | some .addr => L.parseRegister .addr w
  | some .orri => L.parseShortImm .orri w
  | some .orrr => L.parseRegister .orrr w
  | some .andi => L.parseShortImm .andi w
  | some .andr => L.parseRegister .andr w
  | some .xorr => L.parseRegister .xorr w
  | some .cmpi => L.parseShortImm .cmpi w
  | some .cmpr => L.parseCompare .cmpr w
  | some .tsar => L.parseCompare .tsar w
  | some .loadReg => do
    let m ← L.getLoadModifier w
    let rd ← L.getReg L.r1 w
    let rs ← L.getReg L.rs w
    return .loadReg m rd rs
  | some .loadImm => do
    let m ← L.getLoadModifier w
    let rd ← L.getReg L.r1 w
    return .loadImm m rd (BitVec.ofNat 16 (L.imm16.extract w))
  | some .loadInd => do
    let m ← L.getLoadModifier w
    let rd ← L.getReg L.r1 w
    return .loadInd m rd (L.off.extract w)
  | some .bran => do
    let c ← L.getCond w
    return .bran c (L.target.extract w)

/-- The decoder of one instruction word, total, rejecting by name. A word with a bit set outside the fields of
its format is rejected (log 23). -/
def decode (L : Layout) (w : Nat) : Except DecodeError Instr :=
  if 2 ^ L.bits ≤ w then .error .tooLong
  else match L.parse w with
    | .error e => .error e
    | .ok i => if encode L i = w then .ok i else .error .strayBits

/-! ### Images of bytes -/

/-- The number a little-endian list of bytes spells. -/
def littleToNat : List Byte → Nat
  | [] => 0
  | b :: rest => b.toNat + 256 * littleToNat rest

/-- The `k` low bytes of a number, least significant first. -/
def natToLittle : Nat → Nat → List Byte
  | 0, _ => []
  | k + 1, w => BitVec.ofNat 8 w :: natToLittle k (w / 256)

/-- The word of the bytes of one instruction, in the layout's byte order (R42). -/
def Layout.wordOfBytes (L : Layout) (bs : List Byte) : Nat :=
  match L.byteOrder with
  | .little => littleToNat bs
  | .big => littleToNat bs.reverse

/-- The bytes of one word, in the layout's byte order. -/
def Layout.bytesOfWord (L : Layout) (w : Nat) : List Byte :=
  match L.byteOrder with
  | .little => natToLittle (L.bits / 8) w
  | .big => (natToLittle (L.bits / 8) w).reverse

/-- Decode the first instruction of a list of bytes; the rest of the list comes back (log 36). -/
def decodeBytes (L : Layout) (bs : List Byte) : Except DecodeError (Instr × List Byte) :=
  if L.wholeBytes = false then .error .notWholeBytes
  else if bs.length < L.bits / 8 then .error .truncated
  else match decode L (L.wordOfBytes (bs.take (L.bits / 8))) with
    | .ok i => .ok (i, bs.drop (L.bits / 8))
    | .error e => .error e

/-- The bytes of an instruction. -/
def encodeBytes (L : Layout) (i : Instr) : List Byte := L.bytesOfWord (encode L i)

/-- Decode an image of instruction words into a program; the first error stops it. -/
def decodeImage (L : Layout) : List Nat → Except DecodeError (List Instr)
  | [] => .ok []
  | w :: ws =>
    match decode L w, decodeImage L ws with
    | .ok i, .ok is => .ok (i :: is)
    | .error e, _ => .error e
    | .ok _, .error e => .error e

/-! ### The default layout -/

/-- Opcode numbers in the table's order. DESIGN CHOICE (log 23): the spec gives no number (D3). -/
def defaultOpcode : OpName → Nat
  | .addi => 0
  | .addr => 1
  | .orri => 2
  | .orrr => 3
  | .andi => 4
  | .andr => 5
  | .xorr => 6
  | .cmpi => 7
  | .cmpr => 8
  | .tsar => 9
  | .loadReg => 10
  | .loadImm => 11
  | .loadInd => 12
  | .bran => 13

/-- Override codes. DESIGN CHOICE (log 23; D16 leaves them open). -/
def defaultOverrideCode : Override → Nat
  | .a => 0
  | .s => 1
  | .n => 2

/-- Condition codes. DESIGN CHOICE (log 23; D17 leaves them open). -/
def defaultCondCode : Cond → Nat
  | .always => 0
  | .eq => 1
  | .ne => 2
  | .ns => 3
  | .ge => 4

/-- The recalled layout of 92_eei_decisions.md (K1, PRESUMED): 32 bits, `ILEN` 2 cells; opcode 6, R1 4, R2 4, R3 4 (or immediate
8), SO 1, ST 3, SC 4, additional flags 2 (taken for the override, K8), condition 4. The fields of LOAD and BRAN
are DESIGN CHOICE (log 23). -/
def defaultLayout : Layout where
  bits := 32
  ilen := 2
  byteOrder := .big
  op := ⟨26, 6⟩
  r1 := ⟨22, 4⟩
  r2 := ⟨18, 4⟩
  r3 := ⟨14, 4⟩
  imm := ⟨14, 8⟩
  so := ⟨13, 1⟩
  st := ⟨10, 3⟩
  sc := ⟨6, 4⟩
  sro := ⟨4, 2⟩
  cond := ⟨0, 4⟩
  rs := ⟨18, 4⟩
  imm16 := ⟨6, 16⟩
  off := ⟨6, 16⟩
  target := ⟨6, 16⟩
  immExt := .zero
  regIndex := ⟨0, 1, 2, 3, 4, 5, 6⟩
  opcodeOf := defaultOpcode
  overrideCode := defaultOverrideCode
  condCode := defaultCondCode

/-! ### The rows of the opcode table for the fields ST and SO -/

/-- The carrier, override and shift fields of an unconditional Short Immediate or Register instruction. -/
def Instr.asCarrier : Instr → Option (Carrier × Override × Shift)
  | .addi .always o rd imm sh => some (.addi rd imm, o, sh)
  | .addr .always o rd ra rb sh => some (.addr rd ra rb, o, sh)
  | .orri .always o rd imm sh => some (.orri rd imm, o, sh)
  | .orrr .always o rd ra rb sh => some (.orrr rd ra rb, o, sh)
  | .andi .always o rd imm sh => some (.andi rd imm, o, sh)
  | .andr .always o rd ra rb sh => some (.andr rd ra rb, o, sh)
  | .xorr .always o rd ra rb sh => some (.xorr rd ra rb, o, sh)
  | .cmpi .always o rd imm sh => some (.cmpi rd imm, o, sh)
  | .cmpr .always o ra rb sh => some (.cmpr ra rb, o, sh)
  | .tsar .always o ra rb sh => some (.tsar ra rb, o, sh)
  | _ => none

/-- The instruction read as the table's row for its field ST. -/
def stRow (h : Carrier) (o : Override) (sh : Shift) : Instr :=
  match sh.st with
  | .noShift => .stNone h o sh.so sh.sc
  | .lsl => .stLsl h o sh.so sh.sc
  | .lsr => .stLsr h o sh.so sh.sc
  | .asl => .stAsl h o sh.so sh.sc
  | .asr => .stAsr h o sh.so sh.sc
  | .rtl => .stRtl h o sh.so sh.sc
  | .rtr => .stRtr h o sh.so sh.sc
  | .reserved => .stReserved h o sh.so sh.sc

/-- The instruction read as the table's row for its field SO. -/
def soRow (h : Carrier) (o : Override) (sh : Shift) : Instr :=
  match sh.so with
  | .literal => .soLiteral h o sh.st sh.sc
  | .register => .soRegister h o sh.st sh.sc

/-- The row of the field ST whose code is `n`: the word with this ST and every other bit 0, decoded. -/
def decodeStField (n : Nat) : Option Instr :=
  match decode defaultLayout (n <<< defaultLayout.st.pos) with
  | .ok i => i.asCarrier.map fun x => stRow x.1 x.2.1 x.2.2
  | .error _ => none

/-- The row of the field SO whose code is `n`: the word with this SO and every other bit 0, decoded. -/
def decodeSoField (n : Nat) : Option Instr :=
  match decode defaultLayout (n <<< defaultLayout.so.pos) with
  | .ok i => i.asCarrier.map fun x => soRow x.1 x.2.1 x.2.2
  | .error _ => none

/-- The instruction of an opcode-table word. The table's only patterns are those of the fields ST and SO,
numbered from bit 0 OF THE FIELD (`match_mask_relative_to`); as whole bytes the two cannot be told apart, and a
byte is read as ST (log 24). A word of the full length, or without any bit of its own, is an instruction word of the
default layout. -/
def decodeTableWord (nbits w : Nat) : Option Instr :=
  if 1 ≤ nbits ∧ nbits ≤ 2 then
    if w < 2 then decodeSoField w else none
  else if 1 ≤ nbits ∧ nbits ≤ 8 then
    if w < 8 then decodeStField w else none
  else
    match decode defaultLayout w with
    | .ok i => some i
    | .error _ => none

end Sys2Proof
end

