-- ==== Sys2Proof/Machine/State.lean ====
section
/-! DEFINITION. The state of the machine (rule R32), the reasons a step stops (rule R221), and the state after
reset. -/

namespace Sys2Proof.Machine

/-- The status register: four one-bit flags (R24). -/
structure SR where
  c : Bool
  z : Bool
  n : Bool
  v : Bool
  deriving DecidableEq, Repr

/-- The data memory: listed cells, addresses strictly rising, none equal to what an unlisted cell reads as. A cell,
the smallest unit the spec addresses, is a number below `2^MemWordBits` (R40, log 5). -/
abbrev Memory := List (Nat × Nat)

/-- The canonical form of a memory. -/
def Memory.wf : Memory → Bool
  | [] => true
  | (a, x) :: rest => (x != Config.unlistedCell) && rest.all (fun c => decide (a < c.1)) && Memory.wf rest

/-- Model-level faults (R221): not architected traps; nothing is written (R222). -/
inductive Fault where
  /-- Raised by the shift stage on ST = 111 (R127). Safe. -/
  | reservedShiftType
  /-- Raised by the shift stage when a register count is 16 or more under the default `countFromReg` (R107).
  Safe. -/
  | shiftCountOutOfRange (w : Word)
  deriving DecidableEq, Repr

/-- Refusals. -/
inductive Refusal where
  /-- Raised by `exec` for an instruction without a meaning: none is left. Safe. -/
  | notModelled (mnemonic : String)
  /-- Raised by `step` for a statement the program check refuses (R221), and by a meaning that needs what is not
  there (`>=` without `condGE` or `AluCV(CMP)`, a count register that is not admitted). Safe. -/
  | illFormed (why : IllFormed)
  /-- Raised by `step` when `pc` is the length of the program: the run has ended and the state is final (R243).
  Safe. -/
  | runEnded
  /-- Raised by `step` when `pc` is beyond the length of the program; such a state is not final (R243). Safe. -/
  | pcPastEnd
  deriving DecidableEq, Repr

/-- The state: R32, the launch parameters (program and open parameters, logs 1 and 2), and the model's own
counter of draws (log 11). -/
structure State where
  regs : PerReg Word
  a : Nat
  sr : SR
  pc : Nat
  mem : Memory
  prog : List Instr
  params : Params
  draws : Nat
  deriving DecidableEq, Repr

/-- After reset. The spec gives no reset value (R31, R240): every value here is DESIGN CHOICE (logs 1 to 4, 11). -/
def State.reset : State where
  regs := ⟨0, 0, 0, 0, 0, 0, 0⟩
  a := 0
  sr := ⟨false, false, false, false⟩
  pc := 0
  mem := []
  prog := []
  params := Params.initial
  draws := 0

end Sys2Proof.Machine
end

