-- ==== Sys2Proof/Machine/Shifter.lean ====
section
/-! DEFINITION. The pure function `Shift(st, v, n, cin)` (41_shift_types.md, rules R120 to R129). For counts of 16
or more, which only the parameter `countFromReg` can deliver, each type is extended naturally (log 29). -/

namespace Sys2Proof.Machine

/-- The overflow indication of a shift: a bit, left undefined by the source (`unspec`), or undetermined because
two readings of the ASL rule disagree (`any1()`, R123). -/
inductive VOut where
  | bit (b : Bool)
  | unspec
  | any
  deriving DecidableEq, Repr

/-- What the shifter delivers: result, last bit shifted out, overflow indication. -/
structure ShiftResult where
  res : Word
  cout : Option Bool
  vout : VOut
  deriving DecidableEq, Repr

/-- The last bit a left shift by `n ≥ 1` moves out of bit 15: `v[16 - n]` (R121), 0 beyond 16. -/
def leftCarry (v : Word) (n : Nat) : Bool := if n ≤ 16 then v.getLsbD (16 - n) else false

/-- The last bit a logical right shift by `n ≥ 1` moves out of bit 0: `v[n - 1]` (R122), 0 beyond 16. -/
def rightCarry (v : Word) (n : Nat) : Bool := v.getLsbD (n - 1)

/-- The last bit an arithmetic right shift by `n ≥ 1` moves out of bit 0: `v[n - 1]` (R124), the sign beyond 16. -/
def arithCarry (v : Word) (n : Nat) : Bool := v.getLsbD (min (n - 1) 15)

/-- Bit 15 after `k` one-position left shifts. -/
def signAfter (v : Word) (k : Nat) : Bool := (v <<< k).getLsbD 15

/-- `vout` of ASL (R123): 1 if the sign ends different, 0 if it never differs, otherwise undetermined. -/
def aslOverflow (v : Word) (n : Nat) : VOut :=
  if signAfter v n ≠ v.getLsbD 15 then .bit true
  else if (List.range (min n 16 + 1)).all (fun k => signAfter v k == v.getLsbD 15) then .bit false
  else .any

/-- The 17-bit ring of the rotates: the carry above the value (R125). -/
def ring (cin : Bool) (v : Word) : BitVec 17 := BitVec.cons cin v

/-- A ring read back as result and carry-out. -/
def ofRing (r : BitVec 17) : ShiftResult := ⟨r.setWidth 16, some (r.getLsbD 16), .unspec⟩

/-- `Shift(st, v, n, cin)` (R129); `none` where it is not defined (ST = 111, R127). -/
def shift (st : ShiftType) (v : Word) (n : Nat) (cin : Bool) : Option ShiftResult :=
  match st with
  | .noShift => some ⟨v, none, .unspec⟩
  | .reserved => none
  | .lsl => some (if n = 0 then ⟨v, none, .unspec⟩ else ⟨v <<< n, some (leftCarry v n), .unspec⟩)
  | .lsr => some (if n = 0 then ⟨v, none, .unspec⟩ else ⟨v >>> n, some (rightCarry v n), .unspec⟩)
  | .asl => some (if n = 0 then ⟨v, none, .bit false⟩ else ⟨v <<< n, some (leftCarry v n), aslOverflow v n⟩)
  | .asr => some (if n = 0 then ⟨v, none, .unspec⟩ else ⟨v.sshiftRight n, some (arithCarry v n), .unspec⟩)
  | .rtl => some (if n = 0 then ⟨v, none, .unspec⟩ else ofRing ((ring cin v).rotateLeft n))
  | .rtr => some (if n = 0 then ⟨v, none, .unspec⟩ else ofRing ((ring cin v).rotateRight n))

end Sys2Proof.Machine
end

