-- ==== Sys2Proof/Machine/Ops.lean ====
section
/-! DEFINITION. The named operations over registers, memory, program counter, program and draws. There is no
exception entry or return: the spec describes no trap mechanism (R220, R224, R225). -/

namespace Sys2Proof.Machine

/-! ### Stops -/

/-- A reason to stop before anything is written. -/
inductive Stop where
  | fault (f : Fault)
  | refused (r : Refusal)
  deriving DecidableEq, Repr

/-- The outcome of a step that stops: `raise` of R9. It carries no state, so a fault is precise (R222). -/
def Stop.raise : Stop → Host.Outcome State Fault Refusal
  | .fault f => .fault f
  | .refused r => .refused r

/-! ### Registers -/

/-- `x[r]` (R9). -/
def State.getReg (s : State) (r : Reg) : Word := s.regs.get r

/-- `x[r] <- v` (R9). -/
def State.setReg (s : State) (r : Reg) (x : Word) : State := { s with regs := s.regs.set r x }

/-- The write-back of an instruction that may have no destination (R170). -/
def State.writeDest (s : State) (dest : Option Reg) (x : Word) : State :=
  match dest with
  | some r => s.setReg r x
  | none => s

/-- Replace the status register. -/
def State.setSr (s : State) (f : SR) : State := { s with sr := f }

/-- The flag at bit `k` of the status register under `srBit`; `none` at a bit the spec leaves unmodelled (R24). No
instruction in scope reads it. -/
def State.srBitAt (s : State) (k : Nat) : Option Bool :=
  if k = s.params.srBit.c then some s.sr.c
  else if k = s.params.srBit.z then some s.sr.z
  else if k = s.params.srBit.n then some s.sr.n
  else if k = s.params.srBit.v then some s.sr.v
  else none

/-! ### Program counter and program -/

/-- `pc <- t` (R9). -/
def State.setPc (s : State) (t : Nat) : State := { s with pc := t }

/-- `pc <- pc + 1` (R22). -/
def State.advance (s : State) : State := s.setPc (s.pc + 1)

/-- What stands at the program counter: a statement, or why there is none (R243). -/
def State.fetch (s : State) : Except Refusal Instr :=
  match s.prog[s.pc]? with
  | some i => .ok i
  | none => if s.pc = s.prog.length then .error .runEnded else .error .pcPastEnd

/-- The program check of the fetched statement (R221). -/
def State.admits (s : State) (i : Instr) : Option IllFormed := i.illFormed? s.params

/-- A program with `i` at index `k`; a gap before it is filled with `i` itself. -/
def placeAt (prog : List Instr) (k : Nat) (i : Instr) : List Instr :=
  prog.take k ++ List.replicate (k - prog.length) i ++ i :: prog.drop (k + 1)

/-- Load a program (log 1): the text, `pc` at its first statement. -/
def State.loadProgram (s : State) (prog : List Instr) : State := { s with prog := prog, pc := 0 }

/-- Load an image of instruction words under a layout, whose register numbers the machine then uses. -/
def State.loadImage (s : State) (L : Layout) (words : List Nat) : Except DecodeError State :=
  match decodeImage L words with
  | .ok prog => .ok { s.loadProgram prog with params := { s.params with regIndex := L.regIndex } }
  | .error e => .error e

/-! ### Memory -/

/-- The cell at an address. -/
def Memory.read : Memory → Nat → Nat
  | [], _ => Config.unlistedCell
  | (k, x) :: rest, a => if k = a then x else Memory.read rest a

/-- Replace the cell at an address, keeping the canonical form. -/
def Memory.write : Memory → Nat → Nat → Memory
  | [], a, y => if y = Config.unlistedCell then [] else [(a, y)]
  | (k, x) :: rest, a, y =>
    if a < k then (if y = Config.unlistedCell then (k, x) :: rest else (a, y) :: (k, x) :: rest)
    else if a = k then (if y = Config.unlistedCell then rest else (k, y) :: rest)
    else (k, x) :: Memory.write rest a y

/-- `trunc_AWIDTH` (R41, R203). -/
def State.truncAddr (s : State) (x : Nat) : Nat := x % 2 ^ s.params.awidth

/-- `MemRead(addr, 1)` (R41): no translation, no region (R45, R46). -/
def State.memRead (s : State) (addr : Nat) : Nat := s.mem.read (s.truncAddr addr)

/-- `MemWrite(addr, 1, v)` (R41): used by no instruction in scope. A value is cut to the `MemWordBits` bits of a
cell (R40). -/
def State.memWrite (s : State) (addr x : Nat) : State :=
  { s with mem := s.mem.write (s.truncAddr addr) (x % 2 ^ s.params.memWordBits) }

/-- `a <- trunc_AWIDTH(x)` (R203). -/
def State.setA (s : State) (x : Nat) : State := { s with a := s.truncAddr x }

/-! ### Draws -/

/-- The value of the next `any1()` (R9): a free value. -/
def State.drawn (s : State) (k : Nat) : Bool := Config.freeBit (s.draws + k)

/-- Count `k` draws as taken. -/
def State.drawMany (s : State) (k : Nat) : State := { s with draws := s.draws + k }

end Sys2Proof.Machine
end

