-- ==== Sys2Proof/Machine/Operands.lean ====
section
/-! DEFINITION. Operand forms: the second source (R170), the shift count (R105 to R108) and the shift stage
(R109). -/

namespace Sys2Proof.Machine

/-- The second source operand: a register or the extended immediate. It is never shifted (R101). -/
inductive Second where
  | reg (r : Reg)
  | imm (x : Word)
  deriving DecidableEq, Repr

/-- The value of the second source operand. -/
def Second.value (b : Second) (s : State) : Word :=
  match b with
  | .reg r => s.getReg r
  | .imm x => x

/-- `CountFromReg(w)` (R107): the value itself up to 15; above, by the open parameter `countFromReg`. -/
def countFromReg (p : CountPolicy) (w : Word) : Except Stop Nat :=
  if w.toNat ≤ 15 then .ok w.toNat
  else match p with
    | .fault => .error (.fault (.shiftCountOutOfRange w))
    | .lowFour => .ok (w.toNat % 16)
    | .clamp => .ok (min w.toNat 15)
    | .full => .ok w.toNat

/-- The count of the shift stage (R109): 0 for ST = 000 without reading SO and SC; `zext(SC)` for SO = 0; the
count register's value for SO = 1. -/
def State.shiftCount (s : State) (sh : Shift) : Except Stop Nat :=
  if sh.st = .noShift then .ok 0
  else match sh.so with
    | .literal => .ok sh.sc.toNat
    | .register =>
      match regOfNumber s.params.regIndex sh.sc with
      | some r => countFromReg s.params.countFromReg (s.getReg r)
      | none => .error (.refused (.illFormed .countRegisterNotAdmitted))

/-- `ShiftStage(first, ST, SO, SC)` (R109): ST = 111 is tested first (R222); nothing is written. -/
def State.shiftStage (s : State) (first : Reg) (sh : Shift) : Except Stop ShiftResult :=
  if sh.st = .reserved then .error (.fault .reservedShiftType)
  else match s.shiftCount sh with
    | .error e => .error e
    | .ok n =>
      match shift sh.st (s.getReg first) n s.sr.c with
      | some r => .ok r
      | none => .error (.fault .reservedShiftType)

end Sys2Proof.Machine
end

