-- ==== Sys2Proof/Machine/Flags.lean ====
section
/-! DEFINITION. The ALU (R182), the flag write under each override (R146), the flags of a LOAD (R204) and the
conditions (R205). -/

namespace Sys2Proof.Machine

/-- `Alu(op, sv, b)` (R182): 16-bit results, wrapping. -/
def alu (op : AluOp) (sv b : Word) : Word :=
  match op with
  | .add => sv + b
  | .orr => sv ||| b
  | .and => sv &&& b
  | .xor => sv ^^^ b
  | .cmp => sv - b
  | .tsa => sv &&& b

/-- The value of a flag expression at the arguments of `AluCV`. -/
def flagValue (op : AluOp) (x b : Word) (c v : Bool) : FlagExpr → Bool
  | .lit y => y
  | .oldC => c
  | .oldV => v
  | .sv i => x.getLsbD i
  | .second i => b.getLsbD i
  | .res i => (alu op x b).getLsbD i
  | .carry => decide (65536 ≤ x.toNat + b.toNat)
  | .borrow => decide (x.toNat < b.toNat)
  | .not e => !(flagValue op x b c v e)
  | .and e f => flagValue op x b c v e && flagValue op x b c v f
  | .xor e f => flagValue op x b c v e != flagValue op x b c v f

/-- `AluCV(op, sv, b, oldC, oldV)` (R182): what is supplied for the operation, otherwise a free value. -/
def aluCV (p : Params) (op : AluOp) (sv b : Word) (c v : Bool) : Bool × Bool :=
  match p.aluCV.get op with
  | some r => (flagValue op sv b c v r.c, flagValue op sv b c v r.v)
  | none => Config.aluCV op sv b c v

/-- The flags under `[A]` (R146, R147): of the ALU result. -/
def State.flagsFromAlu (s : State) (op : AluOp) (sv b : Word) : State :=
  let r := alu op sv b
  let cv := aluCV s.params op sv b s.sr.c s.sr.v
  s.setSr ⟨cv.1, r == 0, r.msb, cv.2⟩

/-- The flags under `[S]` (R141 to R145, R148): of the shift result; V is a draw where the shifter leaves it
open. -/
def State.flagsFromShift (s : State) (r : ShiftResult) : State :=
  let c := r.cout.getD s.sr.c
  match r.vout with
  | .bit v => s.setSr ⟨c, r.res == 0, r.res.msb, v⟩
  | .unspec => (s.setSr ⟨c, r.res == 0, r.res.msb, s.drawn 0⟩).drawMany 1
  | .any => (s.setSr ⟨c, r.res == 0, r.res.msb, s.drawn 0⟩).drawMany 1

/-- `WriteFlags(sro, op, sv, b, r, cout, vout)` (R146). -/
def State.writeFlags (s : State) (sro : Override) (op : AluOp) (r : ShiftResult) (b : Word) : State :=
  match sro with
  | .n => s
  | .a => s.flagsFromAlu op r.res b
  | .s => s.flagsFromShift r

/-- The flags after a LOAD (R204): unchanged under `[N]`; otherwise by `loadFlags`, four draws by default. -/
def State.loadFlags (s : State) (m : LoadModifier) : State :=
  match m, s.params.loadFlags with
  | .n, _ => s
  | .plain, .kept => s
  | .plain, .drawn => (s.setSr ⟨s.drawn 0, s.drawn 1, s.drawn 2, s.drawn 3⟩).drawMany 4

/-- The entry of a condition's truth table at the flags. -/
def SR.lookup (f : SR) (t : BitVec 16) : Bool :=
  t.getLsbD (8 * f.c.toNat + 4 * f.z.toNat + 2 * f.n.toNat + f.v.toNat)

/-- The test of a condition (R205); `none` for `>=` while its test is not supplied. -/
def State.condHolds (s : State) : Cond → Option Bool
  | .always => some true
  | .eq => some s.sr.z
  | .ne => some (!s.sr.z)
  | .ns => some s.sr.n
  | .ge => s.params.geTest.map fun t => s.sr.lookup t

/-- Conditional execution (R151): a failing condition writes nothing but the program counter. -/
def State.whenCond (s : State) (c : Cond) (run : Host.Outcome State Fault Refusal) : Host.Outcome State Fault Refusal :=
  match s.condHolds c with
  | some true => run
  | some false => .next s.advance
  | none => .refused (.illFormed .conditionGeNotSupplied)

/-- `AluStep(op, writes, rd, first, second, ST, SO, SC, sro)` (R170); `dest` is `none` when nothing is written
back. Every read sees the state `s` (R21). -/
def State.aluStep (s : State) (op : AluOp) (dest : Option Reg) (first : Reg) (second : Second) (sh : Shift)
    (sro : Override) : Host.Outcome State Fault Refusal :=
  match s.shiftStage first sh with
  | .error e => e.raise
  | .ok r =>
    let b := second.value s
    .next (((s.writeDest dest (alu op r.res b)).writeFlags sro op r b).advance)

end Sys2Proof.Machine
end

