-- ==== Sys2Proof/Machine/Alu.lean ====
section
/-! DEFINITION. The ALU instructions that carry a shift (43_alu_instructions.md), SHFT, and the opcode table's rows
for the fields ST and SO. -/

namespace Sys2Proof.Machine

/-- ADDI (R171): `x[rd] <- Shift(x[rd]) + imm16`. -/
def execAddi (c : Cond) (sro : Override) (rd : Reg) (imm : Word) (sh : Shift) (s : State) :
    Host.Outcome State Fault Refusal :=
  s.whenCond c (s.aluStep .add (some rd) rd (.imm imm) sh sro)

/-- ADDR (R172): `x[rd] <- Shift(x[ra]) + x[rb]`. -/
def execAddr (c : Cond) (sro : Override) (rd ra rb : Reg) (sh : Shift) (s : State) :
    Host.Outcome State Fault Refusal :=
  s.whenCond c (s.aluStep .add (some rd) ra (.reg rb) sh sro)

/-- ORRI (R173): `x[rd] <- Shift(x[rd]) or imm16`. -/
def execOrri (c : Cond) (sro : Override) (rd : Reg) (imm : Word) (sh : Shift) (s : State) :
    Host.Outcome State Fault Refusal :=
  s.whenCond c (s.aluStep .orr (some rd) rd (.imm imm) sh sro)

/-- ORRR (R174): `x[rd] <- Shift(x[ra]) or x[rb]`. -/
def execOrrr (c : Cond) (sro : Override) (rd ra rb : Reg) (sh : Shift) (s : State) :
    Host.Outcome State Fault Refusal :=
  s.whenCond c (s.aluStep .orr (some rd) ra (.reg rb) sh sro)

/-- ANDI (R175): `x[rd] <- Shift(x[rd]) and imm16`. -/
def execAndi (c : Cond) (sro : Override) (rd : Reg) (imm : Word) (sh : Shift) (s : State) :
    Host.Outcome State Fault Refusal :=
  s.whenCond c (s.aluStep .and (some rd) rd (.imm imm) sh sro)

/-- ANDR (R176): `x[rd] <- Shift(x[ra]) and x[rb]`. -/
def execAndr (c : Cond) (sro : Override) (rd ra rb : Reg) (sh : Shift) (s : State) :
    Host.Outcome State Fault Refusal :=
  s.whenCond c (s.aluStep .and (some rd) ra (.reg rb) sh sro)

/-- XORR (R177): `x[rd] <- Shift(x[ra]) xor x[rb]`. -/
def execXorr (c : Cond) (sro : Override) (rd ra rb : Reg) (sh : Shift) (s : State) :
    Host.Outcome State Fault Refusal :=
  s.whenCond c (s.aluStep .xor (some rd) ra (.reg rb) sh sro)

/-- CMPI (R178): the flags of `Shift(x[rd]) - imm16`; no register is written. -/
def execCmpi (c : Cond) (sro : Override) (rd : Reg) (imm : Word) (sh : Shift) (s : State) :
    Host.Outcome State Fault Refusal :=
  s.whenCond c (s.aluStep .cmp none rd (.imm imm) sh sro)

/-- CMPR (R179): the flags of `Shift(x[ra]) - x[rb]`; no register is written. -/
def execCmpr (c : Cond) (sro : Override) (ra rb : Reg) (sh : Shift) (s : State) : Host.Outcome State Fault Refusal :=
  s.whenCond c (s.aluStep .cmp none ra (.reg rb) sh sro)

/-- TSAR (R180): the flags of `Shift(x[ra]) and x[rb]`; no register is written. -/
def execTsar (c : Cond) (sro : Override) (ra rb : Reg) (sh : Shift) (s : State) : Host.Outcome State Fault Refusal :=
  s.whenCond c (s.aluStep .tsa none ra (.reg rb) sh sro)

/-- SHFT (R181): ORRI[S] rd, #0, shift. -/
def execShft (rd : Reg) (sh : Shift) (s : State) : Host.Outcome State Fault Refusal :=
  s.aluStep .orr (some rd) rd (.imm 0) sh .s

/-- The instruction a row of the field ST or SO belongs to, run with the given shift fields (R100). -/
def carrierStep (h : Carrier) (sro : Override) (sh : Shift) (s : State) : Host.Outcome State Fault Refusal :=
  match h with
  | .addi rd imm => execAddi .always sro rd imm sh s
  | .addr rd ra rb => execAddr .always sro rd ra rb sh s
  | .orri rd imm => execOrri .always sro rd imm sh s
  | .orrr rd ra rb => execOrrr .always sro rd ra rb sh s
  | .andi rd imm => execAndi .always sro rd imm sh s
  | .andr rd ra rb => execAndr .always sro rd ra rb sh s
  | .xorr rd ra rb => execXorr .always sro rd ra rb sh s
  | .cmpi rd imm => execCmpi .always sro rd imm sh s
  | .cmpr ra rb => execCmpr .always sro ra rb sh s
  | .tsar ra rb => execTsar .always sro ra rb sh s

/-- ST = 000, None (R120). -/
def execStNone (h : Carrier) (sro : Override) (so : CountMode) (sc : BitVec 4) (s : State) :
    Host.Outcome State Fault Refusal :=
  carrierStep h sro ⟨.noShift, so, sc⟩ s

/-- ST = 001, LSL (R121). -/
def execStLsl (h : Carrier) (sro : Override) (so : CountMode) (sc : BitVec 4) (s : State) :
    Host.Outcome State Fault Refusal :=
  carrierStep h sro ⟨.lsl, so, sc⟩ s

/-- ST = 010, LSR (R122). -/
def execStLsr (h : Carrier) (sro : Override) (so : CountMode) (sc : BitVec 4) (s : State) :
    Host.Outcome State Fault Refusal :=
  carrierStep h sro ⟨.lsr, so, sc⟩ s

/-- ST = 011, ASL (R123). -/
def execStAsl (h : Carrier) (sro : Override) (so : CountMode) (sc : BitVec 4) (s : State) :
    Host.Outcome State Fault Refusal :=
  carrierStep h sro ⟨.asl, so, sc⟩ s

/-- ST = 100, ASR (R124). -/
def execStAsr (h : Carrier) (sro : Override) (so : CountMode) (sc : BitVec 4) (s : State) :
    Host.Outcome State Fault Refusal :=
  carrierStep h sro ⟨.asr, so, sc⟩ s

/-- ST = 101, RTL (R125). -/
def execStRtl (h : Carrier) (sro : Override) (so : CountMode) (sc : BitVec 4) (s : State) :
    Host.Outcome State Fault Refusal :=
  carrierStep h sro ⟨.rtl, so, sc⟩ s

/-- ST = 110, RTR (R126). -/
def execStRtr (h : Carrier) (sro : Override) (so : CountMode) (sc : BitVec 4) (s : State) :
    Host.Outcome State Fault Refusal :=
  carrierStep h sro ⟨.rtr, so, sc⟩ s

/-- ST = 111, Reserved (R127): the shift stage faults. -/
def execStReserved (h : Carrier) (sro : Override) (so : CountMode) (sc : BitVec 4) (s : State) :
    Host.Outcome State Fault Refusal :=
  carrierStep h sro ⟨.reserved, so, sc⟩ s

/-- SO = 0, Shift by Immediate (R105). -/
def execSoLiteral (h : Carrier) (sro : Override) (st : ShiftType) (sc : BitVec 4) (s : State) :
    Host.Outcome State Fault Refusal :=
  carrierStep h sro ⟨st, .literal, sc⟩ s

/-- SO = 1, Shift Count in Register (R105). -/
def execSoRegister (h : Carrier) (sro : Override) (st : ShiftType) (sc : BitVec 4) (s : State) :
    Host.Outcome State Fault Refusal :=
  carrierStep h sro ⟨st, .register, sc⟩ s

end Sys2Proof.Machine
end

