-- ==== Sys2Proof/Machine/LoadBranch.lean ====
section
/-! DEFINITION. LOAD in its three forms and BRAN (44_load_branch.md). -/

namespace Sys2Proof.Machine

/-- LOAD rd, rs (R200): `x[rd] <- x[rs]`. -/
def execLoadReg (m : LoadModifier) (rd rs : Reg) (s : State) : Host.Outcome State Fault Refusal :=
  .next (((s.setReg rd (s.getReg rs)).loadFlags m).advance)

/-- LOAD rd, #imm (R201): `x[rd] <- imm16`. -/
def execLoadImm (m : LoadModifier) (rd : Reg) (imm : Word) (s : State) : Host.Outcome State Fault Refusal :=
  .next (((s.setReg rd imm).loadFlags m).advance)

/-- LOAD rd, (#off, a)+ (R203): the cell at `a + off`, then `a <- a + postIncStep`. `off` counts
upwards only, and a cell wider than a register gives its low 16 bits, a narrower one is widened with zeros
(logs 5, 7). -/
def execLoadInd (m : LoadModifier) (rd : Reg) (off : Nat) (s : State) : Host.Outcome State Fault Refusal :=
  .next ((((s.setReg rd (BitVec.ofNat 16 (s.memRead (s.a + off)))).setA (s.a + s.params.postIncStep)).loadFlags m).advance)

/-- BRAN (R206): to the target if the condition holds, else to the next statement; no flag is written. -/
def execBran (c : Cond) (target : Nat) (s : State) : Host.Outcome State Fault Refusal :=
  s.whenCond c (.next (s.setPc target))

end Sys2Proof.Machine
end

