-- ==== Sys2Proof/Machine/Dispatch.lean ====
section
/-! DEFINITION. One arm per constructor of `Instr`, each a direct call of its meaning. -/

namespace Sys2Proof.Machine

def exec (i : Instr) (s : State) : Host.Outcome State Fault Refusal :=
  match i with
  | .addi c o rd imm sh => Sys2Proof.Machine.execAddi c o rd imm sh s
  | .addr c o rd ra rb sh => Sys2Proof.Machine.execAddr c o rd ra rb sh s
  | .orri c o rd imm sh => Sys2Proof.Machine.execOrri c o rd imm sh s
  | .orrr c o rd ra rb sh => Sys2Proof.Machine.execOrrr c o rd ra rb sh s
  | .andi c o rd imm sh => Sys2Proof.Machine.execAndi c o rd imm sh s
  | .andr c o rd ra rb sh => Sys2Proof.Machine.execAndr c o rd ra rb sh s
  | .xorr c o rd ra rb sh => Sys2Proof.Machine.execXorr c o rd ra rb sh s
  | .cmpi c o rd imm sh => Sys2Proof.Machine.execCmpi c o rd imm sh s
  | .cmpr c o ra rb sh => Sys2Proof.Machine.execCmpr c o ra rb sh s
  | .tsar c o ra rb sh => Sys2Proof.Machine.execTsar c o ra rb sh s
  | .loadReg m rd rs => Sys2Proof.Machine.execLoadReg m rd rs s
  | .loadImm m rd imm => Sys2Proof.Machine.execLoadImm m rd imm s
  | .loadInd m rd off => Sys2Proof.Machine.execLoadInd m rd off s
  | .bran c t => Sys2Proof.Machine.execBran c t s
  | .shft rd sh => Sys2Proof.Machine.execShft rd sh s
  | .stNone h o so sc => Sys2Proof.Machine.execStNone h o so sc s
  | .stLsl h o so sc => Sys2Proof.Machine.execStLsl h o so sc s
  | .stLsr h o so sc => Sys2Proof.Machine.execStLsr h o so sc s
  | .stAsl h o so sc => Sys2Proof.Machine.execStAsl h o so sc s
  | .stAsr h o so sc => Sys2Proof.Machine.execStAsr h o so sc s
  | .stRtl h o so sc => Sys2Proof.Machine.execStRtl h o so sc s
  | .stRtr h o so sc => Sys2Proof.Machine.execStRtr h o so sc s
  | .stReserved h o so sc => Sys2Proof.Machine.execStReserved h o so sc s
  | .soLiteral h o st sc => Sys2Proof.Machine.execSoLiteral h o st sc s
  | .soRegister h o st sc => Sys2Proof.Machine.execSoRegister h o st sc s

end Sys2Proof.Machine
end

