-- ==== Sys2Proof/Machine/Step.lean ====
section
/-! DEFINITION. One step: fetch the statement at `pc`, check it (R221), run it. -/

namespace Sys2Proof.Machine

/-- One step of the machine. -/
def step (s : State) : Host.Outcome State Fault Refusal :=
  match s.fetch with
  | .error r => .refused r
  | .ok i =>
    match s.admits i with
    | some why => .refused (.illFormed why)
    | none => exec i s

/-- `s` with the instruction of an opcode-table word as the statement `step` fetches next. The program is a
launch parameter, loaded from outside the machine (R47, D25, log 1); this stands for that load. -/
def State.withFetchWord (s : State) (nbits w : Nat) : State :=
  match decodeTableWord nbits w with
  | some i => { s with prog := placeAt s.prog s.pc i }
  | none => s

end Sys2Proof.Machine
end

