-- ==== Sys2Proof/Machine/Assembler.lean ====
section
/-! DEFINITION. The assembler (rules R66, R70 to R75, R183): one line of text to one decoded instruction, with the
refusals of rule R221 that concern text. Conventions the spec leaves open: log 26. -/

namespace Sys2Proof.Machine

/-- Why a line is refused (R221); each errs toward unprovable. -/
inductive AsmError where
  /-- The line is blank or only a comment: it holds no statement (R73). `assembleProgram` passes over it. -/
  | noStatement
  /-- The line is not of the shape mnemonic, operands, comment (R73). -/
  | badLine
  /-- A mnemonic not in the opcode table. -/
  | unknownMnemonic
  /-- A modifier other than A, S, N (R71). -/
  | unknownModifier
  /-- `[A]` or `[S]` on LOAD, any modifier on BRAN or SHFT (R152, R181). -/
  | modifierNotAdmitted
  /-- A condition on an instruction other than BRAN (R207). -/
  | conditionOnNonBranch
  /-- A condition the source does not use (R205). -/
  | unknownCondition
  /-- A register operand other than r1 to r7, or a base other than a (R20, R23). -/
  | registerNotAdmitted
  /-- A short immediate outside 0..127 (R66), or a LOAD constant beyond 16 bits (R201). -/
  | immediateOutOfRange
  /-- A literal count beyond 15 (R70). -/
  | countOutOfRange
  /-- The spelling ROL (R74). -/
  | rolSpelling
  /-- Any other shift type name (R70). -/
  | unknownShiftType
  /-- A shift postamble on LOAD or BRAN (R202). -/
  | shiftNotShown
  /-- Operands the instruction does not take (R73); a three-operand short-immediate form among them. -/
  | operandForm
  /-- A three-operand compare or test (R179, R180). -/
  | threeOperandCompare
  /-- `LOAD rd, (#off, a)+` with `off` not 0 (R203). -/
  | offsetNotZero
  /-- A branch to a label that is not given. -/
  | unknownLabel
  deriving DecidableEq, Repr

/-! ### From text to a line -/

/-- A word of letters, digits and underscores, or one symbol. -/
inductive Tok where
  | word (cs : List Char)
  | sym (c : Char)
  deriving DecidableEq, Repr

/-- An operand as written (R70, R73). -/
inductive AsmOperand where
  /-- A register or label name. -/
  | name (cs : List Char)
  /-- `#n`. -/
  | imm (n : Nat)
  /-- `TYPE #n`. -/
  | shiftLit (ty : List Char) (n : Nat)
  /-- `TYPE reg`. -/
  | shiftReg (ty reg : List Char)
  /-- `(#off, base)+`. -/
  | postInc (off : Nat) (base : List Char)
  deriving DecidableEq, Repr

/-- A line taken apart (R71 to R73). -/
structure AsmLine where
  mnemonic : List Char
  modifier : Option (List Char)
  cond : Option (List Char)
  operands : List AsmOperand
  deriving DecidableEq, Repr

/-- White space. -/
def isBlank (c : Char) : Bool := c == ' ' || c == '\t'

/-- A character of a name or number. DESIGN CHOICE (log 26): ASCII letters, digits and underscores, in any order; the
source shows the label `bit_was_set` and no label syntax (R73, N46). -/
def isWordChar (c : Char) : Bool := c.isAlphanum || c == '_'

/-- The pending word, if there is one. -/
def flushWord (cur : List Char) : List Tok := if cur.isEmpty then [] else [.word cur.reverse]

/-- The tokens of an operand text. DESIGN CHOICE (log 26): blanks may stand between any two of them. A comment
runs from `;` to the end of the line (R73). `cur` is the pending word, reversed. -/
def lexOperands : List Char → List Char → Option (List Tok)
  | [], cur => some (flushWord cur)
  | c :: cs, cur =>
    if isWordChar c then lexOperands cs (c :: cur)
    else if c == ';' then some (flushWord cur)
    else if isBlank c then (lexOperands cs []).map (flushWord cur ++ ·)
    else if c == '#' || c == ',' || c == '(' || c == ')' || c == '+' then
      (lexOperands cs []).map (flushWord cur ++ .sym c :: ·)
    else none

/-- Split tokens at the commas outside parentheses. -/
def splitCommas : List Tok → Nat → List Tok → List (List Tok)
  | [], _, cur => [cur.reverse]
  | t :: ts, depth, cur =>
    if t = .sym ',' && depth == 0 then cur.reverse :: splitCommas ts 0 []
    else if t = .sym '(' then splitCommas ts (depth + 1) (t :: cur)
    else if t = .sym ')' then splitCommas ts (depth - 1) (t :: cur)
    else splitCommas ts depth (t :: cur)

/-- The value of a digit in a base up to 16. DESIGN CHOICE (log 26): `a` to `f` in either case; the source shows
upper-case digits only. -/
def digitValue (base : Nat) (c : Char) : Option Nat :=
  let v := if c.isDigit then c.toNat - 48
    else if 'a' ≤ c ∧ c ≤ 'f' then c.toNat - 87
    else if 'A' ≤ c ∧ c ≤ 'F' then c.toNat - 55
    else 99
  if v < base then some v else none

/-- The number a list of digits spells, on top of `acc`. -/
def digitsValue (base : Nat) : List Char → Nat → Option Nat
  | [], acc => some acc
  | c :: cs, acc =>
    match digitValue base c with
    | some d => digitsValue base cs (base * acc + d)
    | none => none

/-- A decimal or `0x` hexadecimal literal (R73). DESIGN CHOICE (log 26): the prefix `0X` is not accepted, leading
zeros are, and there is no sign. -/
def numberOf : List Char → Option Nat
  | '0' :: 'x' :: c :: cs => digitsValue 16 (c :: cs) 0
  | c :: cs => digitsValue 10 (c :: cs) 0
  | [] => none

/-- A decimal literal: the literal count of a postamble is one (R70). -/
def decimalOf : List Char → Option Nat
  | [] => none
  | c :: cs => digitsValue 10 (c :: cs) 0

/-- One operand from its tokens (R70, R73). -/
def operandOf : List Tok → Option AsmOperand
  | [.word w] => some (.name w)
  | [.sym '#', .word n] => (numberOf n).map .imm
  | [.word ty, .sym '#', .word n] => (decimalOf n).map (.shiftLit ty)
  | [.word ty, .word r] => some (.shiftReg ty r)
  | [.sym '(', .sym '#', .word n, .sym ',', .word b, .sym ')', .sym '+'] => (numberOf n).map (.postInc · b)
  | _ => none

/-- The operands of an operand text. -/
def operandsOf (cs : List Char) : Option (List AsmOperand) :=
  match lexOperands cs [] with
  | none => none
  | some [] => some []
  | some ts => (splitCommas ts 0 []).mapM operandOf

/-- A modifier written directly after the mnemonic (R71), and what follows it. -/
def splitModifier : List Char → Option (Option (List Char) × List Char)
  | '[' :: cs =>
    match cs.dropWhile (· != ']') with
    | ']' :: rest => some (some (cs.takeWhile (· != ']')), rest)
    | _ => none
  | cs => some (none, cs)

/-- A condition written with a vertical bar (R72), and what follows it. DESIGN CHOICE (log 26): it reaches to the next
blank. -/
def splitCond : List Char → Option (List Char) × List Char
  | '|' :: cs => (some (cs.takeWhile fun c => !isBlank c), cs.dropWhile fun c => !isBlank c)
  | cs => (none, cs)

/-- The line holds no statement: it is blank or only a comment (R73). -/
def lineIsEmpty (text : List Char) : Bool :=
  match text.dropWhile isBlank with
  | [] => true
  | c :: _ => c == ';'

/-- Take a line apart. DESIGN CHOICE (log 26): blanks may stand before the mnemonic, and none is needed between a
modifier and the first operand. -/
def parseLine (text : List Char) : Option AsmLine :=
  let cs := text.dropWhile isBlank
  match splitModifier (cs.dropWhile isWordChar) with
  | none => none
  | some (modifier, rest) =>
    (operandsOf (splitCond rest).2).map fun ops => ⟨cs.takeWhile isWordChar, modifier, (splitCond rest).1, ops⟩

/-! ### From a line to an instruction -/

/-- A register name (R20). -/
def regOfName (cs : List Char) : Except AsmError Reg :=
  match cs with
  | ['r', '1'] => .ok .r1
  | ['r', '2'] => .ok .r2
  | ['r', '3'] => .ok .r3
  | ['r', '4'] => .ok .r4
  | ['r', '5'] => .ok .r5
  | ['r', '6'] => .ok .r6
  | ['r', '7'] => .ok .r7
  | _ => .error .registerNotAdmitted

/-- The spelled shift types (R70); ROL is refused (R74). -/
def shiftTypeOfName (cs : List Char) : Except AsmError ShiftType :=
  match cs with
  | ['L', 'S', 'L'] => .ok .lsl
  | ['L', 'S', 'R'] => .ok .lsr
  | ['A', 'S', 'L'] => .ok .asl
  | ['A', 'S', 'R'] => .ok .asr
  | ['R', 'T', 'L'] => .ok .rtl
  | ['R', 'T', 'R'] => .ok .rtr
  | ['R', 'O', 'L'] => .error .rolSpelling
  | _ => .error .unknownShiftType

/-- The status override of a modifier; `[A]` when none is written (R71). -/
def overrideOfModifier (m : Option (List Char)) : Except AsmError Override :=
  match m with
  | none => .ok .a
  | some ['A'] => .ok .a
  | some ['S'] => .ok .s
  | some ['N'] => .ok .n
  | some _ => .error .unknownModifier

/-- The modifier of a LOAD: `[N]` or none (R152, R204). -/
def loadModifierOf (m : Option (List Char)) : Except AsmError LoadModifier :=
  match m with
  | none => .ok .plain
  | some ['N'] => .ok .n
  | some _ => .error .modifierNotAdmitted

/-- The condition of a suffix; always when none is written (R72, R205). -/
def condOfSuffix (c : Option (List Char)) : Except AsmError Cond :=
  match c with
  | none => .ok .always
  | some ['=', '='] => .ok .eq
  | some ['!', '='] => .ok .ne
  | some ['N', 'S'] => .ok .ns
  | some ['>', '='] => .ok .ge
  | some _ => .error .unknownCondition

/-- The shift fields of a postamble (R70); `ix` is `regIndex`. -/
def shiftOfOperand (ix : PerReg (BitVec 4)) : AsmOperand → Except AsmError Shift
  | .shiftLit ty n => do
    let st ← shiftTypeOfName ty
    if n ≤ 15 then return ⟨st, .literal, BitVec.ofNat 4 n⟩ else throw .countOutOfRange
  | .shiftReg ty r => do
    let st ← shiftTypeOfName ty
    let r ← regOfName r
    return ⟨st, .register, ix.get r⟩
  | .name _ => .error .operandForm
  | .imm _ => .error .operandForm
  | .postInc _ _ => .error .operandForm

/-- An operand that is a postamble. -/
def AsmOperand.isShift : AsmOperand → Bool
  | .shiftLit _ _ => true
  | .shiftReg _ _ => true
  | .name _ => false
  | .imm _ => false
  | .postInc _ _ => false

/-- The operands without the postamble, which is the last operand (R70), and the postamble. -/
def splitPostamble (ops : List AsmOperand) : List AsmOperand × Option AsmOperand :=
  match ops.getLast? with
  | some o => if o.isShift then (ops.dropLast, some o) else (ops, none)
  | none => (ops, none)

/-- The shift fields of an optional postamble (R67). -/
def shiftOf (ix : PerReg (BitVec 4)) (o : Option AsmOperand) : Except AsmError Shift :=
  match o with
  | some o => shiftOfOperand ix o
  | none => .ok .absent

/-- A short immediate: 0 to 127 (R66). -/
def shortImmOf (n : Nat) : Except AsmError Word :=
  if n ≤ 127 then .ok (BitVec.ofNat 16 n) else .error .immediateOutOfRange

/-- The postamble, modifier and absent condition of a line of 43_alu_instructions.md. -/
def aluSuffix (ix : PerReg (BitVec 4)) (l : AsmLine) : Except AsmError (Override × Shift × List AsmOperand) := do
  if l.cond.isSome then throw .conditionOnNonBranch
  let o ← overrideOfModifier l.modifier
  let sh ← shiftOf ix (splitPostamble l.operands).2
  return (o, sh, (splitPostamble l.operands).1)

/-- `OPI rd, #imm`: destination and first source rd (R183). -/
def assembleImm (mk : Cond → Override → Reg → Word → Shift → Instr) (ix : PerReg (BitVec 4)) (l : AsmLine) :
    Except AsmError Instr := do
  let (o, sh, ops) ← aluSuffix ix l
  match ops with
  | [.name rd, .imm n] =>
    let rd ← regOfName rd
    let imm ← shortImmOf n
    return mk .always o rd imm sh
  | _ => throw .operandForm

/-- `OPR rd, ra, rb`, or `OPR rd, rb` read as `OPR rd, rd, rb` (R102, R183). -/
def assembleReg (mk : Cond → Override → Reg → Reg → Reg → Shift → Instr) (ix : PerReg (BitVec 4)) (l : AsmLine) :
    Except AsmError Instr := do
  let (o, sh, ops) ← aluSuffix ix l
  match ops with
  | [.name rd, .name ra, .name rb] =>
    let rd ← regOfName rd
    let ra ← regOfName ra
    let rb ← regOfName rb
    return mk .always o rd ra rb sh
  | [.name rd, .name rb] =>
    let rd ← regOfName rd
    let rb ← regOfName rb
    return mk .always o rd rd rb sh
  | _ => throw .operandForm

/-- `CMPR ra, rb` and `TSAR ra, rb` (R179, R180). -/
def assembleCompare (mk : Cond → Override → Reg → Reg → Shift → Instr) (ix : PerReg (BitVec 4)) (l : AsmLine) :
    Except AsmError Instr := do
  let (o, sh, ops) ← aluSuffix ix l
  match ops with
  | [.name ra, .name rb] =>
    let ra ← regOfName ra
    let rb ← regOfName rb
    return mk .always o ra rb sh
  | [.name _, .name _, .name _] => throw .threeOperandCompare
  | _ => throw .operandForm

/-- `CMPI rd, #imm`; the spelling `CMPI ra, rb` is CMPR (R179, C6). -/
def assembleCmpi (ix : PerReg (BitVec 4)) (l : AsmLine) : Except AsmError Instr :=
  match (splitPostamble l.operands).1 with
  | [.name _, .name _] => assembleCompare .cmpr ix l
  | _ => assembleImm .cmpi ix l

/-- The three forms of LOAD (R200, R201, R203); no postamble (R202). -/
def assembleLoad (l : AsmLine) : Except AsmError Instr := do
  if l.cond.isSome then throw .conditionOnNonBranch
  let m ← loadModifierOf l.modifier
  if (splitPostamble l.operands).2.isSome then throw .shiftNotShown
  match l.operands with
  | [.name rd, .name rs] =>
    let rd ← regOfName rd
    let rs ← regOfName rs
    return .loadReg m rd rs
  | [.name rd, .imm n] =>
    let rd ← regOfName rd
    if n < 65536 then return .loadImm m rd (BitVec.ofNat 16 n) else throw .immediateOutOfRange
  | [.name rd, .postInc off base] =>
    let rd ← regOfName rd
    if base = ['a'] then
      if off = 0 then return .loadInd m rd 0 else throw .offsetNotZero
    else throw .registerNotAdmitted
  | _ => throw .operandForm

/-- `BRAN|cond label` (R206): no modifier (R152), no postamble (R202). DESIGN CHOICE (log 26): the first entry of a
label counts, and a label may be spelled like a register. -/
def assembleBran (labels : List (List Char × Nat)) (l : AsmLine) : Except AsmError Instr := do
  if l.modifier.isSome then throw .modifierNotAdmitted
  if (splitPostamble l.operands).2.isSome then throw .shiftNotShown
  let c ← condOfSuffix l.cond
  match l.operands with
  | [.name label] =>
    match labels.lookup label with
    | some k => return .bran c k
    | none => throw .unknownLabel
  | _ => throw .operandForm

/-- `SHFT rd, shift` expands to `ORRI[S] rd, #0, shift` (R75, R181). -/
def assembleShft (ix : PerReg (BitVec 4)) (l : AsmLine) : Except AsmError Instr := do
  if l.cond.isSome then throw .conditionOnNonBranch
  if l.modifier.isSome then throw .modifierNotAdmitted
  match l.operands with
  | [.name rd, o] =>
    let sh ← shiftOfOperand ix o
    let rd ← regOfName rd
    return .orri .always .s rd 0 sh
  | _ => throw .operandForm

/-- The instruction of a line, by its mnemonic. `ix` is `regIndex`, `labels` the statement indexes of the labels
(R206; the syntax that defines a label is not in the source, R73). -/
def assembleLine (ix : PerReg (BitVec 4)) (labels : List (List Char × Nat)) (l : AsmLine) : Except AsmError Instr :=
  match l.mnemonic with
  | ['A', 'D', 'D', 'I'] => assembleImm .addi ix l
  | ['A', 'D', 'D', 'R'] => assembleReg .addr ix l
  | ['O', 'R', 'R', 'I'] => assembleImm .orri ix l
  | ['O', 'R', 'R', 'R'] => assembleReg .orrr ix l
  | ['A', 'N', 'D', 'I'] => assembleImm .andi ix l
  | ['A', 'N', 'D', 'R'] => assembleReg .andr ix l
  | ['X', 'O', 'R', 'R'] => assembleReg .xorr ix l
  | ['C', 'M', 'P', 'I'] => assembleCmpi ix l
  | ['C', 'M', 'P', 'R'] => assembleCompare .cmpr ix l
  | ['T', 'S', 'A', 'R'] => assembleCompare .tsar ix l
  | ['L', 'O', 'A', 'D'] => assembleLoad l
  | ['B', 'R', 'A', 'N'] => assembleBran labels l
  | ['S', 'H', 'F', 'T'] => assembleShft ix l
  | _ => .error .unknownMnemonic

/-- Assemble one line of text that holds a statement. -/
def assemble (ix : PerReg (BitVec 4)) (labels : List (List Char × Nat)) (text : List Char) : Except AsmError Instr :=
  if lineIsEmpty text then .error .noStatement
  else
    match parseLine text with
    | some l => assembleLine ix labels l
    | none => .error .badLine

/-- Assemble the lines of a program; blank and comment lines are passed over, the first error stops it. -/
def assembleProgram (ix : PerReg (BitVec 4)) (labels : List (List Char × Nat)) :
    List (List Char) → Except AsmError (List Instr)
  | [] => .ok []
  | t :: ts =>
    if lineIsEmpty t then assembleProgram ix labels ts
    else
      match assemble ix labels t, assembleProgram ix labels ts with
      | .ok i, .ok is => .ok (i :: is)
      | .error e, _ => .error e
      | .ok _, .error e => .error e

end Sys2Proof.Machine
end

