-- ==== Sys2Proof/Safety.lean ====
section
/-! DEFINITION. The terms claims are stated in: launch premises and final states (R242, R243), the count and the
shifted operand of an instruction, the flags it must leave, what it may change, and the invariant of the machine. -/

namespace Sys2Proof.Machine

/-! ### Runs -/

/-- The fault an outcome records (R221). A fault ends the run and carries no state, so a state records none. -/
def faultRecorded (o : Host.Outcome State Fault Refusal) : Option Fault :=
  match o with
  | .next _ => none
  | .fault f => some f
  | .refused _ => none

/-- `NoFault` (R242): no fault is recorded (log 20). -/
def NoFault (o : Host.Outcome State Fault Refusal) : Prop := faultRecorded o = none

/-- A final outcome: a state whose `pc` has stepped past the last statement, with no fault recorded; a fault, a refusal
and a `pc` further on are not final (R243). -/
def IsFinal (o : Host.Outcome State Fault Refusal) : Prop := NoFault o ∧ ∃ s, o = .next s ∧ s.pc = s.prog.length

/-- The stated value of a register (R242): a general register, or the address register `a` (R23). -/
inductive RegValue where
  | gen (r : Reg) (x : Word)
  | addr (x : Nat)
  deriving DecidableEq, Repr

/-- The register holds the stated value. -/
def State.holds (s : State) : RegValue → Prop
  | .gen r x => s.getReg r = x
  | .addr x => s.a = x

/-- The launch premise `RegsDefined` (R242): each listed register holds its value. -/
def State.regsDefined (s : State) (vals : List RegValue) : Prop := ∀ p ∈ vals, s.holds p

/-- The launch premise `CarryDefined` (R242). -/
def State.carryDefined (s : State) (c : Bool) : Prop := s.sr.c = c

/-- The launch premise `MemDefined` (R242). -/
def State.memDefined (s : State) (addr x : Nat) : Prop := s.memRead addr = x

/-- The launch premise `PcAt` (R242). -/
def State.pcAt (s : State) (k : Nat) : Prop := s.pc = k

/-- The launch premise `NoFault` of a state a run starts from (R242): no fault is recorded there. Whether the run
faults later is `State.neverFaults`. -/
def State.noFault (s : State) : Prop := NoFault (.next s)

/-- The premise "no fault" a claim about a whole program takes (R221): no number of steps from here faults. -/
def State.neverFaults (s : State) : Prop := ∀ k f, Sys2Proof.core.run k s ≠ .fault f

/-! ### Operands of an instruction, as relations -/

/-- `n = CountFromReg(w)` (R107), each instantiation of the open parameter spelled out; no `n` where it faults. -/
def CountOf (p : CountPolicy) (w : Word) (n : Nat) : Prop :=
  (w.toNat ≤ 15 ∧ n = w.toNat) ∨
  (16 ≤ w.toNat ∧ p = .lowFour ∧ n = w.toNat % 16) ∨
  (16 ≤ w.toNat ∧ p = .clamp ∧ n = 15) ∨
  (16 ≤ w.toNat ∧ p = .full ∧ n = w.toNat)

/-- `n` is the count of the shift stage (R105, R109). -/
def CountIs (s : State) (sh : Shift) (n : Nat) : Prop :=
  (sh.st = .noShift ∧ n = 0) ∨
  (sh.st ≠ .noShift ∧ sh.so = .literal ∧ n = sh.sc.toNat) ∨
  (sh.st ≠ .noShift ∧ sh.so = .register ∧
    ∃ rc, regOfNumber s.params.regIndex sh.sc = some rc ∧ CountOf s.params.countFromReg (s.getReg rc) n)

/-- `r` is what the shifter delivers for the register `first` (R109). -/
def Shifted (s : State) (first : Reg) (sh : Shift) (r : ShiftResult) : Prop :=
  ∃ n, CountIs s sh n ∧ shift sh.st (s.getReg first) n s.sr.c = some r

/-- The shift stage faults with `f` (R109, R221, R222): ST = 111 first; then, with ST not 000 and SO = 1, a count
register of 16 or more under the default `countFromReg`. -/
def ShiftFaults (s : State) (sh : Shift) (f : Fault) : Prop :=
  (sh.st = .reserved ∧ f = .reservedShiftType) ∨
  (sh.st ≠ .noShift ∧ sh.st ≠ .reserved ∧ sh.so = .register ∧ s.params.countFromReg = .fault ∧
    ∃ rc, regOfNumber s.params.regIndex sh.sc = some rc ∧ 16 ≤ (s.getReg rc).toNat ∧
      f = .shiftCountOutOfRange (s.getReg rc))

/-- The flags after a LOAD (R204), each instantiation of the open parameter `loadFlags` spelled out (log 12). -/
def LoadFlagsWritten (s t : State) (m : LoadModifier) : Prop :=
  match m with
  | .n => t.sr = s.sr
  | .plain =>
    (s.params.loadFlags = .kept → t.sr = s.sr) ∧
    (s.params.loadFlags = .drawn →
      t.sr = ⟨Config.freeBit s.draws, Config.freeBit (s.draws + 1), Config.freeBit (s.draws + 2),
        Config.freeBit (s.draws + 3)⟩)

/-- `WriteFlags` (R146) as a relation between the state before and the state after. -/
def FlagsWritten (s t : State) (sro : Override) (op : AluOp) (r : ShiftResult) (b : Word) : Prop :=
  match sro with
  | .n => t.sr = s.sr
  | .a =>
    (t.sr.z = true ↔ alu op r.res b = 0) ∧ t.sr.n = (alu op r.res b).getLsbD 15 ∧
      (t.sr.c, t.sr.v) = aluCV s.params op r.res b s.sr.c s.sr.v
  | .s =>
    (t.sr.z = true ↔ r.res = 0) ∧ t.sr.n = r.res.getLsbD 15 ∧ t.sr.c = r.cout.getD s.sr.c ∧
      match r.vout with
      | .bit v => t.sr.v = v
      | .unspec => t.sr.v = Config.freeBit s.draws
      | .any => t.sr.v = Config.freeBit s.draws

/-! ### What an instruction may change -/

/-- Memory, address register, program and parameters are as before. -/
def FrameKept (s t : State) : Prop :=
  t.a = s.a ∧ (∀ addr, t.mem.read addr = s.mem.read addr) ∧ t.prog = s.prog ∧ t.params = s.params

/-- Every general register is as before. -/
def RegsKept (s t : State) : Prop := ∀ x, t.getReg x = s.getReg x

/-- Every general register but one is as before. -/
def OthersKept (s t : State) (rd : Reg) : Prop := ∀ x, x ≠ rd → t.getReg x = s.getReg x

/-- The ALU operation of a carrier. -/
def carrierOp : Carrier → AluOp
  | .addi _ _ => .add
  | .addr _ _ _ => .add
  | .orri _ _ => .orr
  | .orrr _ _ _ => .orr
  | .andi _ _ => .and
  | .andr _ _ _ => .and
  | .xorr _ _ _ => .xor
  | .cmpi _ _ => .cmp
  | .cmpr _ _ => .cmp
  | .tsar _ _ => .tsa

/-- The destination of a carrier, if it writes one. -/
def carrierDest : Carrier → Option Reg
  | .addi rd _ => some rd
  | .addr rd _ _ => some rd
  | .orri rd _ => some rd
  | .orrr rd _ _ => some rd
  | .andi rd _ => some rd
  | .andr rd _ _ => some rd
  | .xorr rd _ _ => some rd
  | .cmpi _ _ => none
  | .cmpr _ _ => none
  | .tsar _ _ => none

/-- The first source operand of a carrier: the register that is shifted (R101). -/
def carrierFirst : Carrier → Reg
  | .addi rd _ => rd
  | .addr _ ra _ => ra
  | .orri rd _ => rd
  | .orrr _ ra _ => ra
  | .andi rd _ => rd
  | .andr _ ra _ => ra
  | .xorr _ ra _ => ra
  | .cmpi rd _ => rd
  | .cmpr ra _ => ra
  | .tsar ra _ => ra

/-- The value of a carrier's second source operand. -/
def carrierSecond (s : State) : Carrier → Word
  | .addi _ imm => imm
  | .addr _ _ rb => s.getReg rb
  | .orri _ imm => imm
  | .orrr _ _ rb => s.getReg rb
  | .andi _ imm => imm
  | .andr _ _ rb => s.getReg rb
  | .xorr _ _ rb => s.getReg rb
  | .cmpi _ imm => imm
  | .cmpr _ rb => s.getReg rb
  | .tsar _ rb => s.getReg rb

/-- The whole effect of a Short Immediate or Register instruction whose shifter delivers `r` (R170). -/
def CarrierEffect (s t : State) (h : Carrier) (sro : Override) (r : ShiftResult) : Prop :=
  (∀ d, carrierDest h = some d → t.getReg d = alu (carrierOp h) r.res (carrierSecond s h) ∧ OthersKept s t d) ∧
  (carrierDest h = none → RegsKept s t) ∧
  FlagsWritten s t sro (carrierOp h) r (carrierSecond s h) ∧ FrameKept s t ∧ t.pc = s.pc + 1

/-- The general register an instruction may write. -/
def instrDest : Instr → Option Reg
  | .addi _ _ rd _ _ => some rd
  | .addr _ _ rd _ _ _ => some rd
  | .orri _ _ rd _ _ => some rd
  | .orrr _ _ rd _ _ _ => some rd
  | .andi _ _ rd _ _ => some rd
  | .andr _ _ rd _ _ _ => some rd
  | .xorr _ _ rd _ _ _ => some rd
  | .cmpi _ _ _ _ _ => none
  | .cmpr _ _ _ _ _ => none
  | .tsar _ _ _ _ _ => none
  | .loadReg _ rd _ => some rd
  | .loadImm _ rd _ => some rd
  | .loadInd _ rd _ => some rd
  | .bran _ _ => none
  | .shft rd _ => some rd
  | .stNone h _ _ _ => carrierDest h
  | .stLsl h _ _ _ => carrierDest h
  | .stLsr h _ _ _ => carrierDest h
  | .stAsl h _ _ _ => carrierDest h
  | .stAsr h _ _ _ => carrierDest h
  | .stRtl h _ _ _ => carrierDest h
  | .stRtr h _ _ _ => carrierDest h
  | .stReserved h _ _ _ => carrierDest h
  | .soLiteral h _ _ _ => carrierDest h
  | .soRegister h _ _ _ => carrierDest h

/-- The instruction writes no flag: `[N]`, and BRAN (R26). -/
def keepsFlags : Instr → Bool
  | .addi _ o _ _ _ => o == .n
  | .addr _ o _ _ _ _ => o == .n
  | .orri _ o _ _ _ => o == .n
  | .orrr _ o _ _ _ _ => o == .n
  | .andi _ o _ _ _ => o == .n
  | .andr _ o _ _ _ _ => o == .n
  | .xorr _ o _ _ _ _ => o == .n
  | .cmpi _ o _ _ _ => o == .n
  | .cmpr _ o _ _ _ => o == .n
  | .tsar _ o _ _ _ => o == .n
  | .loadReg m _ _ => m == .n
  | .loadImm m _ _ => m == .n
  | .loadInd m _ _ => m == .n
  | .bran _ _ => true
  | .shft _ _ => false
  | .stNone _ o _ _ => o == .n
  | .stLsl _ o _ _ => o == .n
  | .stLsr _ o _ _ => o == .n
  | .stAsl _ o _ _ => o == .n
  | .stAsr _ o _ _ => o == .n
  | .stRtl _ o _ _ => o == .n
  | .stRtr _ o _ _ => o == .n
  | .stReserved _ o _ _ => o == .n
  | .soLiteral _ o _ _ => o == .n
  | .soRegister _ o _ _ => o == .n

/-- The shift fields of an instruction that has them. -/
def shiftOfInstr : Instr → Option Shift
  | .addi _ _ _ _ sh => some sh
  | .addr _ _ _ _ _ sh => some sh
  | .orri _ _ _ _ sh => some sh
  | .orrr _ _ _ _ _ sh => some sh
  | .andi _ _ _ _ sh => some sh
  | .andr _ _ _ _ _ sh => some sh
  | .xorr _ _ _ _ _ sh => some sh
  | .cmpi _ _ _ _ sh => some sh
  | .cmpr _ _ _ _ sh => some sh
  | .tsar _ _ _ _ sh => some sh
  | .loadReg _ _ _ => none
  | .loadImm _ _ _ => none
  | .loadInd _ _ _ => none
  | .bran _ _ => none
  | .shft _ sh => some sh
  | .stNone _ _ so sc => some ⟨.noShift, so, sc⟩
  | .stLsl _ _ so sc => some ⟨.lsl, so, sc⟩
  | .stLsr _ _ so sc => some ⟨.lsr, so, sc⟩
  | .stAsl _ _ so sc => some ⟨.asl, so, sc⟩
  | .stAsr _ _ so sc => some ⟨.asr, so, sc⟩
  | .stRtl _ _ so sc => some ⟨.rtl, so, sc⟩
  | .stRtr _ _ so sc => some ⟨.rtr, so, sc⟩
  | .stReserved _ _ so sc => some ⟨.reserved, so, sc⟩
  | .soLiteral _ _ st sc => some ⟨st, .literal, sc⟩
  | .soRegister _ _ st sc => some ⟨st, .register, sc⟩

/-! ### The invariant -/

/-- What every step keeps: memory in canonical form within the address space, its cells within `MemWordBits` bits, `a` an address, register numbers
injective, a checked program, and `pc` in the program or at its end. -/
structure State.Inv (s : State) : Prop where
  memWf : s.mem.wf = true
  memBound : ∀ c ∈ s.mem, c.1 < 2 ^ s.params.awidth
  cellBound : ∀ c ∈ s.mem, c.2 < 2 ^ s.params.memWordBits
  aBound : s.a < 2 ^ s.params.awidth
  regIndex : s.params.regIndexInjective = true
  checked : programChecked s.params s.prog = true
  pcBound : s.pc ≤ s.prog.length

/-- The instruction of a carrier under a condition. -/
def carrierUnder (c : Cond) (sro : Override) (sh : Shift) : Carrier → Instr
  | .addi rd imm => .addi c sro rd imm sh
  | .addr rd ra rb => .addr c sro rd ra rb sh
  | .orri rd imm => .orri c sro rd imm sh
  | .orrr rd ra rb => .orrr c sro rd ra rb sh
  | .andi rd imm => .andi c sro rd imm sh
  | .andr rd ra rb => .andr c sro rd ra rb sh
  | .xorr rd ra rb => .xorr c sro rd ra rb sh
  | .cmpi rd imm => .cmpi c sro rd imm sh
  | .cmpr ra rb => .cmpr c sro ra rb sh
  | .tsar ra rb => .tsar c sro ra rb sh

/-- The immediate of a carrier of the Short Immediate format. -/
def carrierImm : Carrier → Option Word
  | .addi _ imm => some imm
  | .orri _ imm => some imm
  | .andi _ imm => some imm
  | .cmpi _ imm => some imm
  | .addr _ _ _ => none
  | .orrr _ _ _ => none
  | .andr _ _ _ => none
  | .xorr _ _ _ => none
  | .cmpr _ _ => none
  | .tsar _ _ => none

/-- The second source register of a carrier of the Register format. -/
def carrierSecondReg : Carrier → Option Reg
  | .addi _ _ => none
  | .orri _ _ => none
  | .andi _ _ => none
  | .cmpi _ _ => none
  | .addr _ _ rb => some rb
  | .orrr _ _ rb => some rb
  | .andr _ _ rb => some rb
  | .xorr _ _ rb => some rb
  | .cmpr _ rb => some rb
  | .tsar _ rb => some rb

/-- The mnemonics of the Short Immediate format (R11). -/
def shortImmMnemonics : List (List Char) :=
  [['A', 'D', 'D', 'I'], ['O', 'R', 'R', 'I'], ['A', 'N', 'D', 'I'], ['C', 'M', 'P', 'I']]

/-- The mnemonics that carry a shift postamble: those of the Short Immediate and of the Register format (R100). -/
def carrierMnemonics : List (List Char) :=
  shortImmMnemonics ++ [['A', 'D', 'D', 'R'], ['O', 'R', 'R', 'R'], ['A', 'N', 'D', 'R'], ['X', 'O', 'R', 'R'],
    ['C', 'M', 'P', 'R'], ['T', 'S', 'A', 'R']]

/-- A bit of the 17-bit ring of the rotates: the carry is bit 16 (R125). -/
def ringBit (c : Bool) (v : Word) (k : Nat) : Bool := if k = 16 then c else v.getLsbD k

/-- The 32-bit value of a high and a low word (R130). -/
def pairValue (hi lo : Word) : Nat := hi.toNat * 65536 + lo.toNat

end Sys2Proof.Machine
end

