-- ==== Sys2Proof/Certificates/Slice0/Obligations.lean ====
section
/-! DEFINITION. The statements for the provers. `Shifted`, `CountIs`, `FlagsWritten`, `FrameKept`, `OthersKept`,
`RegsKept`, `CarrierEffect` and `State.Inv` are in Sys2Proof/Safety.lean. -/

open Sys2Proof Sys2Proof.Machine

/-! ### The shifter -/

/-- R120: type None returns the operand, with no carry-out and no overflow, whatever the count fields are; the
stage neither reads a count register nor raises. -/
def Obligations.ShiftNoneReturnsOperand : Prop :=
  (∀ (v : Word) (n : Nat) (cin : Bool), shift .noShift v n cin = some ⟨v, none, .unspec⟩) ∧
  (∀ (s : State) (first : Reg) (so : CountMode) (sc : BitVec 4),
    s.shiftStage first ⟨.noShift, so, sc⟩ = .ok ⟨s.getReg first, none, .unspec⟩)

/-- R128: a count of 0 shifts nothing for every type 001 to 110; the overflow indication is 0 for ASL, which R128
marks as derived ("the sign bit does not change when no shift is performed"). -/
def Obligations.CountZeroShiftsNothing : Prop :=
  ∀ (v : Word) (cin : Bool),
    shift .lsl v 0 cin = some ⟨v, none, .unspec⟩ ∧ shift .lsr v 0 cin = some ⟨v, none, .unspec⟩ ∧
    shift .asl v 0 cin = some ⟨v, none, .bit false⟩ ∧ shift .asr v 0 cin = some ⟨v, none, .unspec⟩ ∧
    shift .rtl v 0 cin = some ⟨v, none, .unspec⟩ ∧ shift .rtr v 0 cin = some ⟨v, none, .unspec⟩

/-- R121: LSL. -/
def Obligations.LslMultipliesModulo : Prop :=
  ∀ (v : Word) (n : Nat) (cin : Bool), 1 ≤ n → n ≤ 15 →
    ∃ r, shift .lsl v n cin = some r ∧
      r.res.toNat = v.toNat * 2 ^ n % 65536 ∧
      (∀ i, i < 16 → r.res.getLsbD i = (decide (n ≤ i) && v.getLsbD (i - n))) ∧
      r.cout = some (v.getLsbD (16 - n)) ∧ r.vout = .unspec

/-- R122: LSR. -/
def Obligations.LsrDividesUnsigned : Prop :=
  ∀ (v : Word) (n : Nat) (cin : Bool), 1 ≤ n → n ≤ 15 →
    ∃ r, shift .lsr v n cin = some r ∧
      r.res.toNat = v.toNat / 2 ^ n ∧
      (∀ i, i < 16 → r.res.getLsbD i = (decide (i + n < 16) && v.getLsbD (i + n))) ∧
      r.cout = some (v.getLsbD (n - 1)) ∧ r.vout = .unspec

/-- R123: ASL, with the three cases of its overflow indication (the spec's decision D9); the carry-out is what R123
marks as derived from "Identical to LSL". -/
def Obligations.AslShiftsAndJudgesSign : Prop :=
  ∀ (v : Word) (n : Nat) (cin : Bool), 1 ≤ n → n ≤ 15 →
    ∃ r, shift .asl v n cin = some r ∧
      r.res.toNat = v.toNat * 2 ^ n % 65536 ∧ r.cout = some (v.getLsbD (16 - n)) ∧
      (r.res.getLsbD 15 ≠ v.getLsbD 15 → r.vout = .bit true) ∧
      ((∀ k, k ≤ n → v.getLsbD (15 - k) = v.getLsbD 15) → r.vout = .bit false) ∧
      (r.res.getLsbD 15 = v.getLsbD 15 → (∃ k, k ≤ n ∧ v.getLsbD (15 - k) ≠ v.getLsbD 15) → r.vout = .any)

/-- R124: ASR. -/
def Obligations.AsrDividesRoundingDown : Prop :=
  ∀ (v : Word) (n : Nat) (cin : Bool), 1 ≤ n → n ≤ 15 →
    ∃ r, shift .asr v n cin = some r ∧
      r.res.toInt = Int.fdiv v.toInt (2 ^ n) ∧
      (∀ i, i < 16 → r.res.getLsbD i = if i + n ≤ 15 then v.getLsbD (i + n) else v.getLsbD 15) ∧
      r.cout = some (v.getLsbD (n - 1)) ∧ r.vout = .unspec

/-- R125: RTL rotates the 17-bit ring left. -/
def Obligations.RtlRotatesRingLeft : Prop :=
  ∀ (v : Word) (n : Nat) (cin : Bool), 1 ≤ n → n ≤ 15 →
    ∃ res, shift .rtl v n cin = some ⟨res, some (v.getLsbD (16 - n)), .unspec⟩ ∧
      ∀ i, i < 17 → ringBit (v.getLsbD (16 - n)) res ((i + n) % 17) = ringBit cin v i

/-- R126: RTR rotates the 17-bit ring right. -/
def Obligations.RtrRotatesRingRight : Prop :=
  ∀ (v : Word) (n : Nat) (cin : Bool), 1 ≤ n → n ≤ 15 →
    ∃ res, shift .rtr v n cin = some ⟨res, some (v.getLsbD (n - 1)), .unspec⟩ ∧
      ∀ i, i < 17 → ringBit (v.getLsbD (n - 1)) res i = ringBit cin v ((i + n) % 17)

/-- R127 with R100 and R181: the reserved type has no result, and every instruction that carries it faults. The clauses
for `stReserved`, `soLiteral` and `soRegister` rest on the model's reading of the rows of ST and SO as instructions
(DEDUCED, log 21). -/
def Obligations.ReservedTypeFaults : Prop :=
  (∀ (v : Word) (n : Nat) (cin : Bool), shift .reserved v n cin = none) ∧
  (∀ (h : Carrier) (sro : Override) (so : CountMode) (sc : BitVec 4) (s : State),
    exec (.stReserved h sro so sc) s = .fault .reservedShiftType ∧
    exec (h.instr sro ⟨.reserved, so, sc⟩) s = .fault .reservedShiftType ∧
    exec (.soLiteral h sro .reserved sc) s = .fault .reservedShiftType ∧
    exec (.soRegister h sro .reserved sc) s = .fault .reservedShiftType) ∧
  (∀ (rd : Reg) (so : CountMode) (sc : BitVec 4) (s : State),
    exec (.shft rd ⟨.reserved, so, sc⟩) s = .fault .reservedShiftType)

/-- R130 (d): an ASL whose overflow indication is 0 multiplies the signed value exactly. -/
def Obligations.AslWithoutOverflowIsExact : Prop :=
  ∀ (v : Word) (n : Nat) (cin : Bool) (r : ShiftResult), n ≤ 15 →
    shift .asl v n cin = some r → r.vout = .bit false → r.res.toInt = v.toInt * 2 ^ n

/-- R130 (e): SHFT RTL by a count and SHFT RTR by the same count restore the register and the carry. -/
def Obligations.RotateRightUndoesRotateLeft : Prop :=
  ∀ (s : State) (rd : Reg) (k : BitVec 4), k ≠ 0 →
    ∃ t u, exec (.shft rd ⟨.rtl, .literal, k⟩) s = .next t ∧ exec (.shft rd ⟨.rtr, .literal, k⟩) t = .next u ∧
      u.getReg rd = s.getReg rd ∧ u.sr.c = s.sr.c

/-! ### The count and the shift stage -/

/-- R107: `CountFromReg`, with each instantiation of its open parameter. -/
def Obligations.CountFromRegisterByPolicy : Prop :=
  ∀ w : Word,
    (w.toNat ≤ 15 → ∀ p, countFromReg p w = .ok w.toNat) ∧
    (16 ≤ w.toNat →
      countFromReg .fault w = .error (.fault (.shiftCountOutOfRange w)) ∧
      countFromReg .lowFour w = .ok (w.toNat % 16) ∧ countFromReg .clamp w = .ok 15 ∧
      countFromReg .full w = .ok w.toNat)

/-- R105: the literal count is `zext(SC)`; the register count is that of the register whose number under an
injective `regIndex` is SC. -/
def Obligations.CountComesFromWhereSoSays : Prop :=
  ∀ (s : State) (st : ShiftType), st ≠ .noShift →
    (∀ sc : BitVec 4, s.shiftCount ⟨st, .literal, sc⟩ = .ok sc.toNat) ∧
    (s.params.regIndexInjective = true → ∀ rc : Reg,
      s.shiftCount ⟨st, .register, s.params.regIndex.get rc⟩ = countFromReg s.params.countFromReg (s.getReg rc))

/-- R107, R222: under the default `countFromReg` a register count of 16 or more faults, in every instruction that
carries a shift whose type is neither None nor reserved; with ST = 111 the other fault comes first. The clauses for
`soRegister` and `stLsl` to `stRtr` rest on the model's reading of the rows of ST and SO as instructions (DEDUCED,
log 21). -/
def Obligations.CountOutOfRangeFaults : Prop :=
  ∀ (s : State) (h : Carrier) (sro : Override) (sc : BitVec 4) (rc : Reg) (st : ShiftType),
    s.params.countFromReg = .fault → regOfNumber s.params.regIndex sc = some rc → 16 ≤ (s.getReg rc).toNat →
    (st ≠ .noShift → st ≠ .reserved →
      exec (h.instr sro ⟨st, .register, sc⟩) s = .fault (.shiftCountOutOfRange (s.getReg rc)) ∧
      exec (.soRegister h sro st sc) s = .fault (.shiftCountOutOfRange (s.getReg rc)) ∧
      ∀ rd, exec (.shft rd ⟨st, .register, sc⟩) s = .fault (.shiftCountOutOfRange (s.getReg rc))) ∧
    exec (.stLsl h sro .register sc) s = .fault (.shiftCountOutOfRange (s.getReg rc)) ∧
    exec (.stLsr h sro .register sc) s = .fault (.shiftCountOutOfRange (s.getReg rc)) ∧
    exec (.stAsl h sro .register sc) s = .fault (.shiftCountOutOfRange (s.getReg rc)) ∧
    exec (.stAsr h sro .register sc) s = .fault (.shiftCountOutOfRange (s.getReg rc)) ∧
    exec (.stRtl h sro .register sc) s = .fault (.shiftCountOutOfRange (s.getReg rc)) ∧
    exec (.stRtr h sro .register sc) s = .fault (.shiftCountOutOfRange (s.getReg rc)) ∧
    exec (h.instr sro ⟨.reserved, .register, sc⟩) s = .fault .reservedShiftType

/-! ### The ALU instructions -/

/-- R170: every instruction of the Short Immediate and Register formats has the effect of the common step, and
stops as its shift stage stops. -/
def Obligations.AluStepHasItsEffect : Prop :=
  ∀ (s : State) (h : Carrier) (sro : Override) (sh : Shift),
    (∀ f, ShiftFaults s sh f → exec (h.instr sro sh) s = .fault f) ∧
    (∀ r, Shifted s (carrierFirst h) sh r → ∃ t, exec (h.instr sro sh) s = .next t ∧ CarrierEffect s t h sro r) ∧
    (∀ e, s.shiftStage (carrierFirst h) sh = .error e → exec (h.instr sro sh) s = e.raise)

/-- R171: ADDI. C and V under `[A]` are those of `AluCV`, whatever it is. -/
def Obligations.AddiAddsImmediate : Prop :=
  ∀ (s : State) (sro : Override) (rd : Reg) (imm : Word) (sh : Shift),
    (∀ r, Shifted s rd sh r → ∃ t, exec (.addi .always sro rd imm sh) s = .next t ∧
      (t.getReg rd).toNat = (r.res.toNat + imm.toNat) % 65536 ∧
      OthersKept s t rd ∧ FlagsWritten s t sro .add r imm ∧ FrameKept s t ∧ t.pc = s.pc + 1) ∧
    ∀ f, ShiftFaults s sh f → exec (.addi .always sro rd imm sh) s = .fault f

/-- R172: ADDR. C and V under `[A]` are those of `AluCV`, whatever it is. -/
def Obligations.AddrAddsRegister : Prop :=
  ∀ (s : State) (sro : Override) (rd ra rb : Reg) (sh : Shift),
    (∀ r, Shifted s ra sh r → ∃ t, exec (.addr .always sro rd ra rb sh) s = .next t ∧
      (t.getReg rd).toNat = (r.res.toNat + (s.getReg rb).toNat) % 65536 ∧
      OthersKept s t rd ∧ FlagsWritten s t sro .add r (s.getReg rb) ∧ FrameKept s t ∧ t.pc = s.pc + 1) ∧
    ∀ f, ShiftFaults s sh f → exec (.addr .always sro rd ra rb sh) s = .fault f

/-- R173: ORRI. -/
def Obligations.OrriOrsImmediate : Prop :=
  ∀ (s : State) (sro : Override) (rd : Reg) (imm : Word) (sh : Shift),
    (∀ r, Shifted s rd sh r → ∃ t, exec (.orri .always sro rd imm sh) s = .next t ∧
      (∀ i, i < 16 → (t.getReg rd).getLsbD i = (r.res.getLsbD i || imm.getLsbD i)) ∧
      OthersKept s t rd ∧ FlagsWritten s t sro .orr r imm ∧ FrameKept s t ∧ t.pc = s.pc + 1) ∧
    ∀ f, ShiftFaults s sh f → exec (.orri .always sro rd imm sh) s = .fault f

/-- R174: ORRR. -/
def Obligations.OrrrOrsRegister : Prop :=
  ∀ (s : State) (sro : Override) (rd ra rb : Reg) (sh : Shift),
    (∀ r, Shifted s ra sh r → ∃ t, exec (.orrr .always sro rd ra rb sh) s = .next t ∧
      (∀ i, i < 16 → (t.getReg rd).getLsbD i = (r.res.getLsbD i || (s.getReg rb).getLsbD i)) ∧
      OthersKept s t rd ∧ FlagsWritten s t sro .orr r (s.getReg rb) ∧ FrameKept s t ∧ t.pc = s.pc + 1) ∧
    ∀ f, ShiftFaults s sh f → exec (.orrr .always sro rd ra rb sh) s = .fault f

/-- R175: ANDI. -/
def Obligations.AndiAndsImmediate : Prop :=
  ∀ (s : State) (sro : Override) (rd : Reg) (imm : Word) (sh : Shift),
    (∀ r, Shifted s rd sh r → ∃ t, exec (.andi .always sro rd imm sh) s = .next t ∧
      (∀ i, i < 16 → (t.getReg rd).getLsbD i = (r.res.getLsbD i && imm.getLsbD i)) ∧
      OthersKept s t rd ∧ FlagsWritten s t sro .and r imm ∧ FrameKept s t ∧ t.pc = s.pc + 1) ∧
    ∀ f, ShiftFaults s sh f → exec (.andi .always sro rd imm sh) s = .fault f

/-- R176: ANDR. -/
def Obligations.AndrAndsRegister : Prop :=
  ∀ (s : State) (sro : Override) (rd ra rb : Reg) (sh : Shift),
    (∀ r, Shifted s ra sh r → ∃ t, exec (.andr .always sro rd ra rb sh) s = .next t ∧
      (∀ i, i < 16 → (t.getReg rd).getLsbD i = (r.res.getLsbD i && (s.getReg rb).getLsbD i)) ∧
      OthersKept s t rd ∧ FlagsWritten s t sro .and r (s.getReg rb) ∧ FrameKept s t ∧ t.pc = s.pc + 1) ∧
    ∀ f, ShiftFaults s sh f → exec (.andr .always sro rd ra rb sh) s = .fault f

/-- R177: XORR; the second source is read before the write, so `rd` may be `rb`. -/
def Obligations.XorrXorsRegister : Prop :=
  ∀ (s : State) (sro : Override) (rd ra rb : Reg) (sh : Shift),
    (∀ r, Shifted s ra sh r → ∃ t, exec (.xorr .always sro rd ra rb sh) s = .next t ∧
      (∀ i, i < 16 → (t.getReg rd).getLsbD i = xor (r.res.getLsbD i) ((s.getReg rb).getLsbD i)) ∧
      OthersKept s t rd ∧ FlagsWritten s t sro .xor r (s.getReg rb) ∧ FrameKept s t ∧ t.pc = s.pc + 1) ∧
    ∀ f, ShiftFaults s sh f → exec (.xorr .always sro rd ra rb sh) s = .fault f

/-- R178: CMPI writes no register; under `[A]` Z says that the shifted register equals the immediate and N is bit
15 of the difference. That CMP subtracts is general knowledge by R182 (D14, K4, log 16). -/
def Obligations.CmpiComparesImmediate : Prop :=
  ∀ (s : State) (sro : Override) (rd : Reg) (imm : Word) (sh : Shift),
    (∀ r, Shifted s rd sh r → ∃ t, exec (.cmpi .always sro rd imm sh) s = .next t ∧
      RegsKept s t ∧ FlagsWritten s t sro .cmp r imm ∧ FrameKept s t ∧ t.pc = s.pc + 1 ∧
      (sro = .a → (t.sr.z = true ↔ r.res = imm) ∧
        (t.sr.n = true ↔ 32768 ≤ (r.res.toNat + 65536 - imm.toNat) % 65536))) ∧
    ∀ f, ShiftFaults s sh f → exec (.cmpi .always sro rd imm sh) s = .fault f

/-- R179: CMPR, a subtraction as in CMPI (D14, K4, log 16). -/
def Obligations.CmprComparesRegister : Prop :=
  ∀ (s : State) (sro : Override) (ra rb : Reg) (sh : Shift),
    (∀ r, Shifted s ra sh r → ∃ t, exec (.cmpr .always sro ra rb sh) s = .next t ∧
      RegsKept s t ∧ FlagsWritten s t sro .cmp r (s.getReg rb) ∧ FrameKept s t ∧ t.pc = s.pc + 1 ∧
      (sro = .a → (t.sr.z = true ↔ r.res = s.getReg rb) ∧
        (t.sr.n = true ↔ 32768 ≤ (r.res.toNat + 65536 - (s.getReg rb).toNat) % 65536))) ∧
    ∀ f, ShiftFaults s sh f → exec (.cmpr .always sro ra rb sh) s = .fault f

/-- R180: TSAR writes no register; under `[A]` Z says that no bit is set in both operands. That TSA is an AND is
general knowledge by R182 (D14, K4, log 16). -/
def Obligations.TsarTestsRegister : Prop :=
  ∀ (s : State) (sro : Override) (ra rb : Reg) (sh : Shift),
    (∀ r, Shifted s ra sh r → ∃ t, exec (.tsar .always sro ra rb sh) s = .next t ∧
      RegsKept s t ∧ FlagsWritten s t sro .tsa r (s.getReg rb) ∧ FrameKept s t ∧ t.pc = s.pc + 1 ∧
      (sro = .a → (t.sr.z = true ↔ ∀ i, i < 16 → (r.res.getLsbD i && (s.getReg rb).getLsbD i) = false) ∧
        t.sr.n = (r.res.getLsbD 15 && (s.getReg rb).getLsbD 15))) ∧
    ∀ f, ShiftFaults s sh f → exec (.tsar .always sro ra rb sh) s = .fault f

/-- R181: SHFT shifts in place with the flags of the shift, and is ORRI[S] rd, #0. -/
def Obligations.ShftShiftsInPlace : Prop :=
  ∀ (s : State) (rd : Reg) (sh : Shift),
    exec (.shft rd sh) s = exec (.orri .always .s rd 0 sh) s ∧
    (∀ r, Shifted s rd sh r →
      ∃ t, exec (.shft rd sh) s = .next t ∧ t.getReg rd = r.res ∧
        OthersKept s t rd ∧ FlagsWritten s t .s .orr r 0 ∧ FrameKept s t ∧ t.pc = s.pc + 1) ∧
    ∀ f, ShiftFaults s sh f → exec (.shft rd sh) s = .fault f

/-- R120 to R126: an instruction read as a row of the field ST has its effect with that shift type. -/
def Obligations.ShiftTypeRowsRun : Prop :=
  ∀ (s : State) (h : Carrier) (sro : Override) (so : CountMode) (sc : BitVec 4) (r : ShiftResult),
    (Shifted s (carrierFirst h) ⟨.noShift, so, sc⟩ r →
      ∃ t, exec (.stNone h sro so sc) s = .next t ∧ CarrierEffect s t h sro r) ∧
    (Shifted s (carrierFirst h) ⟨.lsl, so, sc⟩ r →
      ∃ t, exec (.stLsl h sro so sc) s = .next t ∧ CarrierEffect s t h sro r) ∧
    (Shifted s (carrierFirst h) ⟨.lsr, so, sc⟩ r →
      ∃ t, exec (.stLsr h sro so sc) s = .next t ∧ CarrierEffect s t h sro r) ∧
    (Shifted s (carrierFirst h) ⟨.asl, so, sc⟩ r →
      ∃ t, exec (.stAsl h sro so sc) s = .next t ∧ CarrierEffect s t h sro r) ∧
    (Shifted s (carrierFirst h) ⟨.asr, so, sc⟩ r →
      ∃ t, exec (.stAsr h sro so sc) s = .next t ∧ CarrierEffect s t h sro r) ∧
    (Shifted s (carrierFirst h) ⟨.rtl, so, sc⟩ r →
      ∃ t, exec (.stRtl h sro so sc) s = .next t ∧ CarrierEffect s t h sro r) ∧
    (Shifted s (carrierFirst h) ⟨.rtr, so, sc⟩ r →
      ∃ t, exec (.stRtr h sro so sc) s = .next t ∧ CarrierEffect s t h sro r)

/-- R105: an instruction read as a row of the field SO has its effect with the count from there. -/
def Obligations.CountModeRowsRun : Prop :=
  ∀ (s : State) (h : Carrier) (sro : Override) (st : ShiftType) (sc : BitVec 4) (r : ShiftResult),
    (Shifted s (carrierFirst h) ⟨st, .literal, sc⟩ r →
      ∃ t, exec (.soLiteral h sro st sc) s = .next t ∧ CarrierEffect s t h sro r) ∧
    (Shifted s (carrierFirst h) ⟨st, .register, sc⟩ r →
      ∃ t, exec (.soRegister h sro st sc) s = .next t ∧ CarrierEffect s t h sro r)

/-! ### Flags -/

/-- R141 to R145: under `[S]` C is the last bit shifted out or keeps its value, Z and N are those of the shifted
value, V is the shifter's indication or the free value of the next draw. -/
def Obligations.ShiftFlagsUnderS : Prop :=
  ∀ (s : State) (h : Carrier) (sh : Shift) (r : ShiftResult), Shifted s (carrierFirst h) sh r →
    ∃ t, exec (h.instr .s sh) s = .next t ∧
      (∀ b, r.cout = some b → t.sr.c = b) ∧ (r.cout = none → t.sr.c = s.sr.c) ∧
      (t.sr.z = true ↔ r.res = 0) ∧ t.sr.n = r.res.getLsbD 15 ∧
      (∀ b, r.vout = .bit b → t.sr.v = b) ∧
      (r.vout = .unspec ∨ r.vout = .any → t.sr.v = Config.freeBit s.draws)

/-- R149: under `[N]` no flag is written. -/
def Obligations.NoFlagsUnderN : Prop :=
  ∀ (s : State) (h : Carrier) (sh : Shift) (r : ShiftResult), Shifted s (carrierFirst h) sh r →
    ∃ t, exec (h.instr .n sh) s = .next t ∧ t.sr = s.sr

/-- R182, K3, log 10: under `[A]` and the spec's default `AluCV(ADD)`, an add sets C on an unsigned carry-out and V on a
signed overflow of the 16-bit sum. -/
def Obligations.AddCarryAndOverflow : Prop :=
  ∀ (s : State) (rd ra rb : Reg) (imm : Word) (sh : Shift), s.params.aluCV.add = some .standardAdd →
    (∀ r, Shifted s rd sh r → ∃ t, exec (.addi .always .a rd imm sh) s = .next t ∧
      (t.sr.c = true ↔ 65536 ≤ r.res.toNat + imm.toNat) ∧
      (t.sr.v = true ↔ r.res.toInt + imm.toInt < -32768 ∨ 32767 < r.res.toInt + imm.toInt)) ∧
    (∀ r, Shifted s ra sh r → ∃ t, exec (.addr .always .a rd ra rb sh) s = .next t ∧
      (t.sr.c = true ↔ 65536 ≤ r.res.toNat + (s.getReg rb).toNat) ∧
      (t.sr.v = true ↔ r.res.toInt + (s.getReg rb).toInt < -32768 ∨ 32767 < r.res.toInt + (s.getReg rb).toInt))

/-- R146: the override changes nothing but the flag write: registers, memory, address register and program counter
come out the same under any two overrides (so a rotate reads C under all of them, R27). -/
def Obligations.OverrideChangesOnlyFlags : Prop :=
  ∀ (s t u : State) (h : Carrier) (o o' : Override) (sh : Shift),
    exec (h.instr o sh) s = .next t → exec (h.instr o' sh) s = .next u →
      (∀ x, t.getReg x = u.getReg x) ∧ t.mem = u.mem ∧ t.a = u.a ∧ t.pc = u.pc

/-! ### Consequences for programs of one or two instructions -/

/-- R21, log 34: one register may be destination, first source and count; both reads see its old value. -/
def Obligations.DestinationMayBeItsOwnCount : Prop :=
  ∀ (s : State) (sro : Override) (rd : Reg), s.params.regIndexInjective = true → (s.getReg rd).toNat ≤ 15 →
    ∃ t, exec (.addi .always sro rd 0 ⟨.lsl, .register, s.params.regIndex.get rd⟩) s = .next t ∧
      (t.getReg rd).toNat = (s.getReg rd).toNat * 2 ^ (s.getReg rd).toNat % 65536

/-- R103: the register that supplied the first source is changed only if it is the destination; where it is also the
second source, the second use sees it unshifted. The last clause is the source's own example, for every count. -/
def Obligations.SecondUseIsUnshifted : Prop :=
  (∀ (s : State) (h : Carrier) (sro : Override) (sh : Shift) (r : ShiftResult), Shifted s (carrierFirst h) sh r →
    ∃ t, exec (h.instr sro sh) s = .next t ∧
      (carrierDest h ≠ some (carrierFirst h) → t.getReg (carrierFirst h) = s.getReg (carrierFirst h)) ∧
      (carrierSecondReg h = some (carrierFirst h) →
        (∀ d, carrierDest h = some d → t.getReg d = alu (carrierOp h) r.res (s.getReg (carrierFirst h))) ∧
        FlagsWritten s t sro (carrierOp h) r (s.getReg (carrierFirst h)))) ∧
  (∀ (s : State) (sro : Override) (rd ra : Reg) (k : BitVec 4),
    ∃ t, exec (.addr .always sro rd ra ra ⟨.lsl, .literal, k⟩) s = .next t ∧
      (t.getReg rd).toNat = ((s.getReg ra).toNat * 2 ^ k.toNat + (s.getReg ra).toNat) % 65536)

/-- R130 (f): SHFT LSL #1 on the low word, then SHFT RTL #1 on the high word, double the 32-bit value; C holds the bit
shifted out of bit 31. -/
def Obligations.WordPairShiftsLeft : Prop :=
  ∀ (s : State) (hi lo : Reg), hi ≠ lo →
    ∃ t u, exec (.shft lo ⟨.lsl, .literal, 1⟩) s = .next t ∧ exec (.shft hi ⟨.rtl, .literal, 1⟩) t = .next u ∧
      pairValue (u.getReg hi) (u.getReg lo) = pairValue (s.getReg hi) (s.getReg lo) * 2 % 2 ^ 32 ∧
      u.sr.c = (s.getReg hi).getLsbD 15

/-- R130 (f): SHFT LSR #1 (or ASR #1) on the high word, then SHFT RTR #1 on the low word, halve the unsigned (signed,
rounding down) 32-bit value; C holds the bit shifted out of bit 0. -/
def Obligations.WordPairShiftsRight : Prop :=
  ∀ (s : State) (hi lo : Reg), hi ≠ lo →
    (∃ t u, exec (.shft hi ⟨.lsr, .literal, 1⟩) s = .next t ∧ exec (.shft lo ⟨.rtr, .literal, 1⟩) t = .next u ∧
      pairValue (u.getReg hi) (u.getReg lo) = pairValue (s.getReg hi) (s.getReg lo) / 2 ∧
      u.sr.c = (s.getReg lo).getLsbD 0) ∧
    (∃ t u, exec (.shft hi ⟨.asr, .literal, 1⟩) s = .next t ∧ exec (.shft lo ⟨.rtr, .literal, 1⟩) t = .next u ∧
      (u.getReg hi).toInt * 65536 + (u.getReg lo).toNat =
        Int.fdiv ((s.getReg hi).toInt * 65536 + (s.getReg lo).toNat) 2 ∧
      u.sr.c = (s.getReg lo).getLsbD 0)

/-! ### LOAD and BRAN -/

/-- R200: LOAD rd, rs; the flags by the open parameter `loadFlags` (R204); its value `kept`
is the model's choice (log 12). -/
def Obligations.LoadRegCopies : Prop :=
  ∀ (s : State) (m : LoadModifier) (rd rs : Reg),
    ∃ t, exec (.loadReg m rd rs) s = .next t ∧ t.getReg rd = s.getReg rs ∧ OthersKept s t rd ∧
      LoadFlagsWritten s t m ∧ FrameKept s t ∧ t.pc = s.pc + 1

/-- R201: LOAD rd, #imm; the flags by the open parameter `loadFlags` (R204); its value `kept`
is the model's choice (log 12). -/
def Obligations.LoadImmWritesConstant : Prop :=
  ∀ (s : State) (m : LoadModifier) (rd : Reg) (imm : Word),
    ∃ t, exec (.loadImm m rd imm) s = .next t ∧ t.getReg rd = imm ∧ OthersKept s t rd ∧
      LoadFlagsWritten s t m ∧ FrameKept s t ∧ t.pc = s.pc + 1

/-- R203: LOAD rd, (#off, a)+ reads one cell at `trunc(a + off)` and then sets `a` to `trunc(a + postIncStep)`; a cell
of at most 16 bits, as R40 admits, arrives whole. The meaning of the form is general knowledge by R203 (K6, D21); an
`off` without a sign, and what a wider cell gives, are the model's choice (logs 5, 7), `loadFlags` log 12. -/
def Obligations.LoadIndReadsAndIncrements : Prop :=
  ∀ (s : State) (m : LoadModifier) (rd : Reg) (off : Nat),
    ∃ t, exec (.loadInd m rd off) s = .next t ∧
      (t.getReg rd).toNat = s.mem.read ((s.a + off) % 2 ^ s.params.awidth) % 65536 ∧
      (s.mem.read ((s.a + off) % 2 ^ s.params.awidth) < 65536 →
        (t.getReg rd).toNat = s.mem.read ((s.a + off) % 2 ^ s.params.awidth)) ∧
      t.a = (s.a + s.params.postIncStep) % 2 ^ s.params.awidth ∧
      OthersKept s t rd ∧ (∀ addr, t.mem.read addr = s.mem.read addr) ∧ t.prog = s.prog ∧ t.params = s.params ∧
      LoadFlagsWritten s t m ∧ t.pc = s.pc + 1

/-- R204, log 12: `[N]` keeps the flags; without it each flag is a free value, or all are kept, as the open
parameter `loadFlags` says. -/
def Obligations.LoadFlagsByModifier : Prop :=
  ∀ (s : State) (rd rs : Reg) (imm : Word) (off : Nat) (i : LoadModifier → Instr),
    ((i = fun m => .loadReg m rd rs) ∨ (i = fun m => .loadImm m rd imm) ∨ (i = fun m => .loadInd m rd off)) →
    (∃ t, exec (i .n) s = .next t ∧ t.sr = s.sr) ∧
    (s.params.loadFlags = .kept → ∃ t, exec (i .plain) s = .next t ∧ t.sr = s.sr) ∧
    (s.params.loadFlags = .drawn → ∃ t, exec (i .plain) s = .next t ∧
      t.sr = ⟨Config.freeBit s.draws, Config.freeBit (s.draws + 1), Config.freeBit (s.draws + 2),
        Config.freeBit (s.draws + 3)⟩)

/-- R205, R206: BRAN changes nothing but the program counter, which goes to the target when the condition holds and
to the next statement otherwise; `>=` tests the supplied `condGE` and is refused unless it
and `AluCV(CMP)` are supplied (the form of `condGE`: log 13; the tests of R205 are marked derived). -/
def Obligations.BranGoesWhereConditionSays : Prop :=
  ∀ (s : State) (k : Nat),
    exec (.bran .always k) s = .next { s with pc := k } ∧
    exec (.bran .eq k) s = .next { s with pc := if s.sr.z = true then k else s.pc + 1 } ∧
    exec (.bran .ne k) s = .next { s with pc := if s.sr.z = false then k else s.pc + 1 } ∧
    exec (.bran .ns k) s = .next { s with pc := if s.sr.n = true then k else s.pc + 1 } ∧
    (∀ t r, s.params.condGE = some t → s.params.aluCV.cmp = some r →
      exec (.bran .ge k) s = .next { s with pc := if s.sr.lookup t = true then k else s.pc + 1 }) ∧
    (s.params.condGE = none ∨ s.params.aluCV.cmp = none →
      exec (.bran .ge k) s = .refused (.illFormed .conditionGeNotSupplied))

/-- R151, log 18: the recorded reading of a conditional instruction other than BRAN: with its condition met it is the
unconditional instruction; with its condition failed it writes nothing but the program counter. -/
def Obligations.ConditionSuppressesInstruction : Prop :=
  ∀ (s : State) (h : Carrier) (c : Cond) (sro : Override) (sh : Shift),
    (s.condHolds c = some true → exec (carrierUnder c sro sh h) s = exec (h.instr sro sh) s) ∧
    (s.condHolds c = some false → exec (carrierUnder c sro sh h) s = .next { s with pc := s.pc + 1 })

/-- R207, R221: a statement that the program check refuses is refused when a step fetches it, with the check's reason;
then each reason in turn. That a step makes the check (R221 makes it before a run), and which reason is reported where
several apply, are the model's choice (log 19). -/
def Obligations.StepRefusesWhatTheCheckRefuses : Prop :=
  (∀ (s : State) (i : Instr) (why : IllFormed), s.prog[s.pc]? = some i → i.illFormed? s.params = some why →
    step s = .refused (.illFormed why)) ∧
  (∀ (s : State) (h : Carrier) (c : Cond) (sro : Override) (sh : Shift), c ≠ .always →
    s.prog[s.pc]? = some (carrierUnder c sro sh h) → step s = .refused (.illFormed .conditionOnNonBranch)) ∧
  (∀ (s : State) (h : Carrier) (sro : Override) (sh : Shift) (imm : Word), carrierImm h = some imm →
    127 < imm.toNat → s.prog[s.pc]? = some (h.instr sro sh) → step s = .refused (.illFormed .immediateOutOfRange)) ∧
  (∀ (s : State) (h : Carrier) (sro : Override) (st : ShiftType) (sc : BitVec 4),
    (∀ imm, carrierImm h = some imm → imm.toNat ≤ 127) → st ≠ .noShift → st ≠ .reserved →
    regOfNumber s.params.regIndex sc = none → s.prog[s.pc]? = some (h.instr sro ⟨st, .register, sc⟩) →
      step s = .refused (.illFormed .countRegisterNotAdmitted)) ∧
  (∀ (s : State) (m : LoadModifier) (rd : Reg) (off : Nat), off ≠ 0 → s.prog[s.pc]? = some (.loadInd m rd off) →
    step s = .refused (.illFormed .offsetNotZero)) ∧
  (∀ (s : State) (k : Nat), s.params.condGE = none ∨ s.params.aluCV.cmp = none → s.prog[s.pc]? = some (.bran .ge k) →
    step s = .refused (.illFormed .conditionGeNotSupplied))

/-! ### Frames -/

/-- R26, R47 and the write lists of 43 and 44: an instruction changes no general register but its destination, no
memory cell, no parameter and no statement of the program; `a` changes only by the indirect LOAD; `[N]` and BRAN keep
every flag. -/
def Obligations.OnlyDestinationChanges : Prop :=
  ∀ (i : Instr) (s t : State), exec i s = .next t →
    (∀ x, instrDest i ≠ some x → t.getReg x = s.getReg x) ∧
    (∀ addr, t.mem.read addr = s.mem.read addr) ∧ t.prog = s.prog ∧ t.params = s.params ∧
    ((∀ m rd off, i ≠ .loadInd m rd off) → t.a = s.a) ∧
    (keepsFlags i = true → t.sr = s.sr)

/-- R41: a cell written is read back and every other cell is as before; addresses are taken modulo `2^AWIDTH`. That
memory is a list in a canonical form, which a write keeps, and what an unlisted cell reads as are the model's choice
(logs 4, 5); a written value is cut to `MemWordBits` bits. -/
def Obligations.MemWriteThenRead : Prop :=
  ∀ (s : State) (addr other x : Nat), s.mem.wf = true →
    (s.memWrite addr x).memRead addr = x % 2 ^ s.params.memWordBits ∧ (s.memWrite addr x).mem.wf = true ∧
    s.memRead (addr + 2 ^ s.params.awidth) = s.memRead addr ∧
    (other % 2 ^ s.params.awidth ≠ addr % 2 ^ s.params.awidth → (s.memWrite addr x).memRead other = s.memRead other)

/-! ### Steps, runs and the invariant -/

/-- The statement at `pc`, if admitted, is what the step runs; and in a machine loaded from an image of words, it is
what the decoder reads from the word at `pc`. -/
def Obligations.StepRunsDecodedInstruction : Prop :=
  (∀ (s : State) (i : Instr), s.prog[s.pc]? = some i → i.illFormed? s.params = none → step s = exec i s) ∧
  (∀ (L : Layout) (ws : List Nat) (s t : State) (k w : Nat) (i : Instr),
    s.loadImage L ws = .ok t → ws[k]? = some w → decode L w = .ok i → i.illFormed? t.params = none →
      step { t with pc := k } = exec i { t with pc := k })

/-- R243, log 20: at the end of the program the run has ended; beyond it a state is not final. -/
def Obligations.RunEndsAtProgramEnd : Prop :=
  ∀ s : State, (s.pc = s.prog.length → step s = .refused .runEnded) ∧
    (s.prog.length < s.pc → step s = .refused .pcPastEnd)

/-- The invariant holds after reset (the reset values are the model's, logs 1 to 8). -/
def Obligations.ResetMeetsInvariant : Prop := State.reset.Inv

/-- Every step keeps the invariant: memory in canonical form, inside the address space and the width of a cell, `a` an address, the
parameters sound, the program checked, `pc` inside the program or at its end. -/
def Obligations.StepKeepsInvariant : Prop := ∀ s t : State, s.Inv → step s = .next t → t.Inv

/-- R221: in a checked program a statement is never refused: the step gives a next state or one of the two faults. -/
def Obligations.CheckedProgramIsNeverRefused : Prop :=
  ∀ s : State, s.Inv → s.pc < s.prog.length →
    (∃ t, step s = .next t) ∨ step s = .fault .reservedShiftType ∨
      ∃ w : Word, 16 ≤ w.toNat ∧ step s = .fault (.shiftCountOutOfRange w)

/-- R221, R222: a checked program without ST = 111, under a `countFromReg` other than the faulting default, never
stops before its end: one step from inside it gives a next state, again in the invariant. -/
def Obligations.CheckedProgramDoesNotStopEarly : Prop :=
  ∀ s : State, s.Inv → s.pc < s.prog.length → s.params.countFromReg ≠ .fault →
    (∀ i ∈ s.prog, ∀ sh, shiftOfInstr i = some sh → sh.st ≠ .reserved) → ∃ t, step s = .next t ∧ t.Inv

/-- After reset (R31 gives no value; every value is DESIGN CHOICE or PRESUMED, logs 1 to 13): registers, `a`, flags and
`pc` are 0, memory lists nothing and reads as 0, there is no program, and the step says that the run has ended. -/
def Obligations.ResetLeavesChosenValues : Prop :=
  (∀ r, State.reset.getReg r = 0) ∧ State.reset.a = 0 ∧ State.reset.sr = ⟨false, false, false, false⟩ ∧
    State.reset.pc = 0 ∧ (∀ addr, State.reset.memRead addr = 0) ∧ State.reset.prog = [] ∧
    step State.reset = .refused .runEnded

/-! ### Encoding -/

/-- R62, R76: under every valid layout the decoder reads an encoded instruction back, every operand at every value its
field admits; SHFT and the rows of ST and SO come back as the instruction whose word they share. -/
def Obligations.DecodeReadsEncoded : Prop :=
  ∀ (L : Layout) (i : Instr), L.valid = true → L.fits i = true → decode L (encode L i) = .ok i.core

/-- Under every layout a word the decoder accepts is the encoding of what it reads, so no two words decode to one
instruction, and it has no bit beyond the instruction length. -/
def Obligations.DecodedWordIsEncoding : Prop :=
  ∀ (L : Layout) (w : Nat) (i : Instr), decode L w = .ok i → encode L i = w ∧ w < 2 ^ L.bits

/-- The bytes of an instruction decode to it, whatever bytes follow, in either byte order. An image of bytes, its byte
order and its layouts of whole bytes are the model's choice (logs 23, 32, 36). -/
def Obligations.DecodeReadsEncodedBytes : Prop :=
  ∀ (L : Layout) (i : Instr) (rest : List Byte), L.valid = true → L.wholeBytes = true → L.fits i = true →
    decodeBytes L (encodeBytes L i ++ rest) = .ok (i.core, rest)

/-- R63, R64: the codes of the fields ST and SO; and a few words of the recalled layout (K1; its opcode, override and
condition codes are DESIGN CHOICE, log 23). -/
def Obligations.FieldCodesAndDefaultWords : Prop :=
  ([0b000, 0b001, 0b010, 0b011, 0b100, 0b101, 0b110, 0b111].map ShiftType.ofCode =
    [.noShift, .lsl, .lsr, .asl, .asr, .rtl, .rtr, .reserved]) ∧
  (∀ st : ShiftType, ShiftType.ofCode st.code = st) ∧ (∀ so : CountMode, CountMode.ofCode so.code = so) ∧
  CountMode.literal.code = 0 ∧ CountMode.register.code = 1 ∧
  decode defaultLayout 0x00008450 = .ok (.addi .always .s .r1 2 ⟨.lsl, .literal, 1⟩) ∧
  decode defaultLayout 0x040524C0 = .ok (.addr .always .a .r1 .r2 .r5 ⟨.lsl, .register, 3⟩) ∧
  decode defaultLayout 0x2CFFFFC0 = .ok (.loadImm .plain .r4 0xFFFF) ∧
  decode defaultLayout 0x340001C1 = .ok (.bran .eq 7) ∧
  decode defaultLayout 0xFC000000 = .error .unknownOpcode

/-! ### The assembler -/

/-- R102, R183: the two-operand register form is the three-operand form with the destination repeated. -/
def Obligations.TwoOperandFormRepeatsDestination : Prop :=
  ∀ (ix : PerReg (BitVec 4)) (labels : List (List Char × Nat)) (mn rd rb : List Char) (m c : Option (List Char))
    (post : List AsmOperand),
    mn ∈ [['A', 'D', 'D', 'R'], ['O', 'R', 'R', 'R'], ['A', 'N', 'D', 'R'], ['X', 'O', 'R', 'R']] →
    (post = [] ∨ ∃ o, post = [o] ∧ o.isShift = true) →
      assembleLine ix labels ⟨mn, m, c, [.name rd, .name rb] ++ post⟩ =
        assembleLine ix labels ⟨mn, m, c, [.name rd, .name rd, .name rb] ++ post⟩

/-- R75, C6: SHFT rd, shift assembles as ORRI[S] rd, #0, shift; CMPI with two registers assembles as CMPR. -/
def Obligations.AssemblerExpandsShftAndCmpi : Prop :=
  (∀ (ix : PerReg (BitVec 4)) (labels : List (List Char × Nat)) (rd : List Char) (o : AsmOperand), o.isShift = true →
    assembleLine ix labels ⟨['S', 'H', 'F', 'T'], none, none, [.name rd, o]⟩ =
      assembleLine ix labels ⟨['O', 'R', 'R', 'I'], some ['S'], none, [.name rd, .imm 0, o]⟩) ∧
  (∀ (ix : PerReg (BitVec 4)) (labels : List (List Char × Nat)) (ra rb : List Char) (m c : Option (List Char))
    (post : List AsmOperand), (post = [] ∨ ∃ o, post = [o] ∧ o.isShift = true) →
    assembleLine ix labels ⟨['C', 'M', 'P', 'I'], m, c, [.name ra, .name rb] ++ post⟩ =
      assembleLine ix labels ⟨['C', 'M', 'P', 'R'], m, c, [.name ra, .name rb] ++ post⟩)

/-- R221: an instruction the assembler accepts passes the program check, but for `>=` unless `condGE` and
`AluCV(CMP)` are supplied. -/
def Obligations.AssembledIsAdmitted : Prop :=
  ∀ (p : Params) (labels : List (List Char × Nat)) (text : List Char) (i : Instr),
    assemble p.regIndex labels text = .ok i →
      i.illFormed? p = none ∨ ((∃ k, i = .bran .ge k) ∧ (p.condGE = none ∨ p.aluCV.cmp = none))

/-- R66, R74, R152, R202, R207: what the assembler refuses by name, as whole lines. Which reason a line with several
faults gets is the model's choice (log 26: condition, modifier, postamble, operands; on BRAN modifier, postamble,
condition). -/
def Obligations.AssemblerRefusesByName : Prop :=
  ∀ (ix : PerReg (BitVec 4)) (labels : List (List Char × Nat)) (ops : List AsmOperand),
    (∀ m ∈ [['A'], ['S']],
      assembleLine ix labels ⟨['L', 'O', 'A', 'D'], some m, none, ops⟩ = .error .modifierNotAdmitted) ∧
    (∀ m c, assembleLine ix labels ⟨['B', 'R', 'A', 'N'], some m, c, ops⟩ = .error .modifierNotAdmitted) ∧
    (∀ o : AsmOperand, o.isShift = true →
      (∀ m ∈ [none, some ['N']],
        assembleLine ix labels ⟨['L', 'O', 'A', 'D'], m, none, ops ++ [o]⟩ = .error .shiftNotShown) ∧
      (∀ c, assembleLine ix labels ⟨['B', 'R', 'A', 'N'], none, c, ops ++ [o]⟩ = .error .shiftNotShown)) ∧
    (∀ mn ∈ carrierMnemonics ++ [['L', 'O', 'A', 'D'], ['S', 'H', 'F', 'T']], ∀ m c,
      assembleLine ix labels ⟨mn, m, some c, ops⟩ = .error .conditionOnNonBranch) ∧
    (∀ mn ∈ carrierMnemonics, ∀ m ov n x, overrideOfModifier m = .ok ov →
      assembleLine ix labels ⟨mn, m, none, ops ++ [.shiftLit ['R', 'O', 'L'] n]⟩ = .error .rolSpelling ∧
      assembleLine ix labels ⟨mn, m, none, ops ++ [.shiftReg ['R', 'O', 'L'] x]⟩ = .error .rolSpelling) ∧
    (∀ rd n x,
      assembleLine ix labels ⟨['S', 'H', 'F', 'T'], none, none, [.name rd, .shiftLit ['R', 'O', 'L'] n]⟩ =
        .error .rolSpelling ∧
      assembleLine ix labels ⟨['S', 'H', 'F', 'T'], none, none, [.name rd, .shiftReg ['R', 'O', 'L'] x]⟩ =
        .error .rolSpelling) ∧
    (∀ mn ∈ shortImmMnemonics, ∀ m ov rd r n, overrideOfModifier m = .ok ov → regOfName rd = .ok r → 127 < n →
      assembleLine ix labels ⟨mn, m, none, [.name rd, .imm n]⟩ = .error .immediateOutOfRange ∧
      ∀ o sh, o.isShift = true → shiftOfOperand ix o = .ok sh →
        assembleLine ix labels ⟨mn, m, none, [.name rd, .imm n, o]⟩ = .error .immediateOutOfRange)
end

