-- ==== Sys2Proof/Laws/State.lean ====
section
/-! SUPPORT. One lemma per field per update of the state. -/

namespace Sys2Proof.Machine

variable (s : State)

@[simp] theorem State.setReg_regs (r : Reg) (x : Word) : (s.setReg r x).regs = s.regs.set r x := rfl
@[simp] theorem State.setReg_a (r : Reg) (x : Word) : (s.setReg r x).a = s.a := rfl
@[simp] theorem State.setReg_sr (r : Reg) (x : Word) : (s.setReg r x).sr = s.sr := rfl
@[simp] theorem State.setReg_pc (r : Reg) (x : Word) : (s.setReg r x).pc = s.pc := rfl
@[simp] theorem State.setReg_mem (r : Reg) (x : Word) : (s.setReg r x).mem = s.mem := rfl
@[simp] theorem State.setReg_prog (r : Reg) (x : Word) : (s.setReg r x).prog = s.prog := rfl
@[simp] theorem State.setReg_params (r : Reg) (x : Word) : (s.setReg r x).params = s.params := rfl
@[simp] theorem State.setReg_draws (r : Reg) (x : Word) : (s.setReg r x).draws = s.draws := rfl

@[simp] theorem State.setSr_regs (f : SR) : (s.setSr f).regs = s.regs := rfl
@[simp] theorem State.setSr_a (f : SR) : (s.setSr f).a = s.a := rfl
@[simp] theorem State.setSr_sr (f : SR) : (s.setSr f).sr = f := rfl
@[simp] theorem State.setSr_pc (f : SR) : (s.setSr f).pc = s.pc := rfl
@[simp] theorem State.setSr_mem (f : SR) : (s.setSr f).mem = s.mem := rfl
@[simp] theorem State.setSr_prog (f : SR) : (s.setSr f).prog = s.prog := rfl
@[simp] theorem State.setSr_params (f : SR) : (s.setSr f).params = s.params := rfl
@[simp] theorem State.setSr_draws (f : SR) : (s.setSr f).draws = s.draws := rfl

@[simp] theorem State.setPc_regs (t : Nat) : (s.setPc t).regs = s.regs := rfl
@[simp] theorem State.setPc_a (t : Nat) : (s.setPc t).a = s.a := rfl
@[simp] theorem State.setPc_sr (t : Nat) : (s.setPc t).sr = s.sr := rfl
@[simp] theorem State.setPc_pc (t : Nat) : (s.setPc t).pc = t := rfl
@[simp] theorem State.setPc_mem (t : Nat) : (s.setPc t).mem = s.mem := rfl
@[simp] theorem State.setPc_prog (t : Nat) : (s.setPc t).prog = s.prog := rfl
@[simp] theorem State.setPc_params (t : Nat) : (s.setPc t).params = s.params := rfl
@[simp] theorem State.setPc_draws (t : Nat) : (s.setPc t).draws = s.draws := rfl

@[simp] theorem State.advance_regs : s.advance.regs = s.regs := rfl
@[simp] theorem State.advance_a : s.advance.a = s.a := rfl
@[simp] theorem State.advance_sr : s.advance.sr = s.sr := rfl
@[simp] theorem State.advance_pc : s.advance.pc = s.pc + 1 := rfl
@[simp] theorem State.advance_mem : s.advance.mem = s.mem := rfl
@[simp] theorem State.advance_prog : s.advance.prog = s.prog := rfl
@[simp] theorem State.advance_params : s.advance.params = s.params := rfl
@[simp] theorem State.advance_draws : s.advance.draws = s.draws := rfl

@[simp] theorem State.setA_regs (x : Nat) : (s.setA x).regs = s.regs := rfl
@[simp] theorem State.setA_a (x : Nat) : (s.setA x).a = s.truncAddr x := rfl
@[simp] theorem State.setA_sr (x : Nat) : (s.setA x).sr = s.sr := rfl
@[simp] theorem State.setA_pc (x : Nat) : (s.setA x).pc = s.pc := rfl
@[simp] theorem State.setA_mem (x : Nat) : (s.setA x).mem = s.mem := rfl
@[simp] theorem State.setA_prog (x : Nat) : (s.setA x).prog = s.prog := rfl
@[simp] theorem State.setA_params (x : Nat) : (s.setA x).params = s.params := rfl
@[simp] theorem State.setA_draws (x : Nat) : (s.setA x).draws = s.draws := rfl

@[simp] theorem State.memWrite_regs (addr x : Nat) : (s.memWrite addr x).regs = s.regs := rfl
@[simp] theorem State.memWrite_a (addr x : Nat) : (s.memWrite addr x).a = s.a := rfl
@[simp] theorem State.memWrite_sr (addr x : Nat) : (s.memWrite addr x).sr = s.sr := rfl
@[simp] theorem State.memWrite_pc (addr x : Nat) : (s.memWrite addr x).pc = s.pc := rfl
@[simp] theorem State.memWrite_mem (addr x : Nat) : (s.memWrite addr x).mem = s.mem.write (s.truncAddr addr) (x % 2 ^ s.params.memWordBits) := rfl
@[simp] theorem State.memWrite_prog (addr x : Nat) : (s.memWrite addr x).prog = s.prog := rfl
@[simp] theorem State.memWrite_params (addr x : Nat) : (s.memWrite addr x).params = s.params := rfl
@[simp] theorem State.memWrite_draws (addr x : Nat) : (s.memWrite addr x).draws = s.draws := rfl

@[simp] theorem State.drawMany_regs (k : Nat) : (s.drawMany k).regs = s.regs := rfl
@[simp] theorem State.drawMany_a (k : Nat) : (s.drawMany k).a = s.a := rfl
@[simp] theorem State.drawMany_sr (k : Nat) : (s.drawMany k).sr = s.sr := rfl
@[simp] theorem State.drawMany_pc (k : Nat) : (s.drawMany k).pc = s.pc := rfl
@[simp] theorem State.drawMany_mem (k : Nat) : (s.drawMany k).mem = s.mem := rfl
@[simp] theorem State.drawMany_prog (k : Nat) : (s.drawMany k).prog = s.prog := rfl
@[simp] theorem State.drawMany_params (k : Nat) : (s.drawMany k).params = s.params := rfl
@[simp] theorem State.drawMany_draws (k : Nat) : (s.drawMany k).draws = s.draws + k := rfl

theorem PerReg.get_set_same {α : Type} (p : PerReg α) (r : Reg) (x : α) : (p.set r x).get r = x := by
  cases r <;> rfl

theorem PerReg.get_set_other {α : Type} (p : PerReg α) {r q : Reg} (x : α) (h : q ≠ r) :
    (p.set r x).get q = p.get q := by
  cases r <;> cases q <;> first | rfl | exact absurd rfl h

@[simp] theorem State.getReg_setReg_same (r : Reg) (x : Word) : (s.setReg r x).getReg r = x :=
  PerReg.get_set_same s.regs r x

theorem State.getReg_setReg_other {r q : Reg} (x : Word) (h : q ≠ r) : (s.setReg r x).getReg q = s.getReg q :=
  PerReg.get_set_other s.regs x h

@[simp] theorem State.getReg_setSr (f : SR) (q : Reg) : (s.setSr f).getReg q = s.getReg q := rfl
@[simp] theorem State.getReg_setPc (t : Nat) (q : Reg) : (s.setPc t).getReg q = s.getReg q := rfl
@[simp] theorem State.getReg_advance (q : Reg) : s.advance.getReg q = s.getReg q := rfl
@[simp] theorem State.getReg_setA (x : Nat) (q : Reg) : (s.setA x).getReg q = s.getReg q := rfl
@[simp] theorem State.getReg_drawMany (k : Nat) (q : Reg) : (s.drawMany k).getReg q = s.getReg q := rfl

end Sys2Proof.Machine
end

