-- ==== Sys2Proof/Laws/Ops.lean ====
section
/-! SUPPORT. What the shared operations over memory, registers and flags can do, each said once. -/

namespace Sys2Proof.Machine

/-! ### Memory -/

theorem Memory.wf_cons (a x : Nat) (m : Memory) :
    Memory.wf ((a, x) :: m) = true ↔ x ≠ Config.unlistedCell ∧ (∀ c ∈ m, a < c.1) ∧ Memory.wf m = true := by
  simp [Memory.wf, and_assoc]

/-- Every listed address after a write was listed before, or is the one written. -/
theorem Memory.mem_write {m : Memory} {a y : Nat} {c : Nat × Nat} (h : c ∈ m.write a y) :
    c ∈ m ∨ c.1 = a := by
  induction m with
  | nil => grind [Memory.write]
  | cons hd tl ih => grind [Memory.write]

/-- A write keeps the canonical form. -/
theorem Memory.wf_write {m : Memory} (a y : Nat) (h : m.wf = true) : (m.write a y).wf = true := by
  induction m with
  | nil => by_cases hy : y = Config.unlistedCell <;> simp [Memory.write, Memory.wf, hy]
  | cons hd tl ih =>
    obtain ⟨k, x⟩ := hd
    obtain ⟨hx, hk, htl⟩ := (Memory.wf_cons k x tl).1 h
    unfold Memory.write
    split_ifs with h1 h2 h3 h4
    · exact h
    · exact (Memory.wf_cons _ _ _).2 ⟨h2, fun c hc => by
        rcases List.mem_cons.1 hc with rfl | hc
        · exact h1
        · exact lt_trans h1 (hk c hc), h⟩
    · exact htl
    · exact (Memory.wf_cons _ _ _).2 ⟨h4, hk, htl⟩
    · refine (Memory.wf_cons _ _ _).2 ⟨hx, fun c hc => ?_, ih htl⟩
      rcases Memory.mem_write hc with hc | hc
      · exact hk c hc
      · omega

/-- A cell below every listed address reads as an unlisted one. -/
theorem Memory.read_below {m : Memory} {k b : Nat} (hk : ∀ c ∈ m, k < c.1) (hb : b ≤ k) :
    Memory.read m b = Config.unlistedCell := by
  induction m with
  | nil => rfl
  | cons c cs ih =>
    have h1 := hk c (by simp)
    have : c.1 ≠ b := by omega
    simp only [Memory.read, this, if_false]
    exact ih fun d hd => hk d (by simp [hd])

/-- What a memory of canonical form reads as after a write (R41). -/
theorem Memory.read_write {m : Memory} (a y : Nat) (h : m.wf = true) (b : Nat) :
    Memory.read (Memory.write m a y) b = if b = a then y else Memory.read m b := by
  induction m with
  | nil => by_cases hy : y = Config.unlistedCell <;> simp [Memory.write, Memory.read, hy, eq_comm]
  | cons hd tl ih =>
    obtain ⟨k, x⟩ := hd
    obtain ⟨hx, hk, htl⟩ := (Memory.wf_cons k x tl).1 h
    have ih := ih htl
    have low := @Memory.read_below tl k
    unfold Memory.write
    grind [Memory.read]

theorem State.reset_mem_wf : State.reset.mem.wf = true := rfl

/-! ### Writes back -/

/-- A write-back touches nothing but the registers. -/
theorem State.writeDest_frame (s : State) (d : Option Reg) (x : Word) :
    (s.writeDest d x).a = s.a ∧ (s.writeDest d x).sr = s.sr ∧ (s.writeDest d x).pc = s.pc ∧
    (s.writeDest d x).mem = s.mem ∧ (s.writeDest d x).prog = s.prog ∧ (s.writeDest d x).params = s.params ∧
    (s.writeDest d x).draws = s.draws := by
  cases d <;> simp [State.writeDest]

theorem State.getReg_writeDest_none (s : State) (x : Word) (q : Reg) : (s.writeDest none x).getReg q = s.getReg q := rfl

theorem State.getReg_writeDest_same (s : State) (d : Reg) (x : Word) : (s.writeDest (some d) x).getReg d = x :=
  s.getReg_setReg_same d x

theorem State.getReg_writeDest_other (s : State) {d : Option Reg} (x : Word) {q : Reg} (h : d ≠ some q) :
    (s.writeDest d x).getReg q = s.getReg q := by
  cases d with
  | none => rfl
  | some d => exact s.getReg_setReg_other x fun e => h (e ▸ rfl)

/-! ### `AluCV` and the test of `>=` -/

/-- What is supplied for an operation is its carry and overflow (R182). -/
theorem aluCV_supplied {p : Params} {op : AluOp} {r : CVRule} (h : p.aluCV.get op = some r) (x b : Word) (c v : Bool) :
    aluCV p op x b c v = (flagValue op x b c v r.c, flagValue op x b c v r.v) := by
  unfold aluCV
  rw [h]

/-- What is not supplied is a free value (R182). -/
theorem aluCV_free {p : Params} {op : AluOp} (h : p.aluCV.get op = none) (x b : Word) (c v : Bool) :
    aluCV p op x b c v = Config.aluCV op x b c v := by
  unfold aluCV
  rw [h]

/-- `>=` has a test exactly when `condGE` and `AluCV(CMP)` are supplied (R205). -/
theorem geTest_eq_some {p : Params} {t : BitVec 16} :
    p.geTest = some t ↔ p.condGE = some t ∧ p.aluCV.cmp.isSome = true := by
  unfold Params.geTest
  cases p.condGE <;> cases p.aluCV.cmp <;> simp

/-- ... and has none otherwise. -/
theorem geTest_eq_none {p : Params} : p.geTest = none ↔ p.condGE = none ∨ p.aluCV.cmp = none := by
  unfold Params.geTest
  cases p.condGE <;> cases p.aluCV.cmp <;> simp

/-! ### Flag writes -/

/-- A flag write touches nothing but the status register and the count of draws. -/
theorem State.writeFlags_frame (s : State) (o : Override) (op : AluOp) (r : ShiftResult) (b : Word) :
    (s.writeFlags o op r b).regs = s.regs ∧ (s.writeFlags o op r b).a = s.a ∧ (s.writeFlags o op r b).pc = s.pc ∧
    (s.writeFlags o op r b).mem = s.mem ∧ (s.writeFlags o op r b).prog = s.prog ∧
    (s.writeFlags o op r b).params = s.params := by
  cases o
  · simp [State.writeFlags, State.flagsFromAlu]
  · unfold State.writeFlags State.flagsFromShift
    rcases r with ⟨_, _, _ | _ | _⟩ <;> simp
  · simp [State.writeFlags]

/-- Under `[N]` nothing is written (R149). -/
@[simp] theorem State.writeFlags_n (s : State) (op : AluOp) (r : ShiftResult) (b : Word) :
    s.writeFlags .n op r b = s := rfl

/-- Under `[A]` the flags are those of the ALU (R146). -/
theorem State.writeFlags_a_sr (s : State) (op : AluOp) (r : ShiftResult) (b : Word) :
    (s.writeFlags .a op r b).sr =
      ⟨(aluCV s.params op r.res b s.sr.c s.sr.v).1, alu op r.res b == 0, (alu op r.res b).msb,
        (aluCV s.params op r.res b s.sr.c s.sr.v).2⟩ := rfl

/-- A LOAD's flag write touches nothing but the status register and the count of draws. -/
theorem State.loadFlags_frame (s : State) (m : LoadModifier) :
    (s.loadFlags m).regs = s.regs ∧ (s.loadFlags m).a = s.a ∧ (s.loadFlags m).pc = s.pc ∧
    (s.loadFlags m).mem = s.mem ∧ (s.loadFlags m).prog = s.prog ∧ (s.loadFlags m).params = s.params := by
  unfold State.loadFlags
  split <;> simp

/-! ### The common step -/

/-- What an ALU step can do: stop as the shift stage stops, or write back, write the flags and advance. -/
theorem State.aluStep_cases (s : State) (op : AluOp) (d : Option Reg) (first : Reg) (b : Second) (sh : Shift)
    (o : Override) :
    (∃ e, s.shiftStage first sh = .error e ∧ s.aluStep op d first b sh o = e.raise) ∨
    (∃ r, s.shiftStage first sh = .ok r ∧
      s.aluStep op d first b sh o =
        .next ((s.writeDest d (alu op r.res (b.value s))).writeFlags o op r (b.value s)).advance) := by
  unfold State.aluStep
  cases h : s.shiftStage first sh with
  | error e => exact .inl ⟨e, rfl, rfl⟩
  | ok r => exact .inr ⟨r, rfl, rfl⟩

/-- A raised stop is no next state. -/
theorem Stop.raise_ne_next (e : Stop) (t : State) : e.raise ≠ .next t := by
  cases e <;> simp [Stop.raise]

/-- What conditional execution can do (R151). -/
theorem State.whenCond_cases (s : State) (c : Cond) (run : Host.Outcome State Fault Refusal) :
    (s.condHolds c = some true ∧ s.whenCond c run = run) ∨
    (s.condHolds c = some false ∧ s.whenCond c run = .next s.advance) ∨
    (s.condHolds c = none ∧ s.whenCond c run = .refused (.illFormed .conditionGeNotSupplied)) := by
  unfold State.whenCond
  rcases h : s.condHolds c with _ | _ | _ <;> simp

@[simp] theorem State.whenCond_always (s : State) (run : Host.Outcome State Fault Refusal) :
    s.whenCond .always run = run := rfl

/-- The shifter is defined on every type but the reserved one. -/
theorem shift_isSome {st : ShiftType} (v : Word) (n : Nat) (c : Bool) (h : st ≠ .reserved) :
    ∃ r, shift st v n c = some r := by
  cases st <;> simp_all [shift]

end Sys2Proof.Machine
end

