-- ==== Sys2Proof/Laws/PerInstr.lean ====
section
/-! SUPPORT. The family CoreForm: an instruction and the core instruction whose words it shares have the same core,
the same word, the same shift fields and the same destination. -/

namespace Sys2Proof.Laws.CoreForm

open Sys2Proof Sys2Proof.Machine

/-- The statement of one instruction. -/
def Statement (i : Instr) : Prop :=
  i.core.core = i.core ∧ (∀ L, encode L i = encode L i.core) ∧ shiftOfInstr i.core = shiftOfInstr i ∧
    instrDest i.core = instrDest i ∧ (∀ L : Layout, L.fits i = true → L.fits i.core = true)

theorem addi (c : Cond) (o : Override) (rd : Reg) (imm : Word) (sh : Shift) :
    Statement (.addi c o rd imm sh) := ⟨rfl, fun _ => rfl, rfl, rfl, fun _ h => h⟩

theorem addr (c : Cond) (o : Override) (rd : Reg) (ra : Reg) (rb : Reg) (sh : Shift) :
    Statement (.addr c o rd ra rb sh) := ⟨rfl, fun _ => rfl, rfl, rfl, fun _ h => h⟩

theorem orri (c : Cond) (o : Override) (rd : Reg) (imm : Word) (sh : Shift) :
    Statement (.orri c o rd imm sh) := ⟨rfl, fun _ => rfl, rfl, rfl, fun _ h => h⟩

theorem orrr (c : Cond) (o : Override) (rd : Reg) (ra : Reg) (rb : Reg) (sh : Shift) :
    Statement (.orrr c o rd ra rb sh) := ⟨rfl, fun _ => rfl, rfl, rfl, fun _ h => h⟩

theorem andi (c : Cond) (o : Override) (rd : Reg) (imm : Word) (sh : Shift) :
    Statement (.andi c o rd imm sh) := ⟨rfl, fun _ => rfl, rfl, rfl, fun _ h => h⟩

theorem andr (c : Cond) (o : Override) (rd : Reg) (ra : Reg) (rb : Reg) (sh : Shift) :
    Statement (.andr c o rd ra rb sh) := ⟨rfl, fun _ => rfl, rfl, rfl, fun _ h => h⟩

theorem xorr (c : Cond) (o : Override) (rd : Reg) (ra : Reg) (rb : Reg) (sh : Shift) :
    Statement (.xorr c o rd ra rb sh) := ⟨rfl, fun _ => rfl, rfl, rfl, fun _ h => h⟩

theorem cmpi (c : Cond) (o : Override) (rd : Reg) (imm : Word) (sh : Shift) :
    Statement (.cmpi c o rd imm sh) := ⟨rfl, fun _ => rfl, rfl, rfl, fun _ h => h⟩

theorem cmpr (c : Cond) (o : Override) (ra : Reg) (rb : Reg) (sh : Shift) :
    Statement (.cmpr c o ra rb sh) := ⟨rfl, fun _ => rfl, rfl, rfl, fun _ h => h⟩

theorem tsar (c : Cond) (o : Override) (ra : Reg) (rb : Reg) (sh : Shift) :
    Statement (.tsar c o ra rb sh) := ⟨rfl, fun _ => rfl, rfl, rfl, fun _ h => h⟩

theorem loadReg (m : LoadModifier) (rd : Reg) (rs : Reg) :
    Statement (.loadReg m rd rs) := ⟨rfl, fun _ => rfl, rfl, rfl, fun _ h => h⟩

theorem loadImm (m : LoadModifier) (rd : Reg) (imm : Word) :
    Statement (.loadImm m rd imm) := ⟨rfl, fun _ => rfl, rfl, rfl, fun _ h => h⟩

theorem loadInd (m : LoadModifier) (rd : Reg) (off : Nat) :
    Statement (.loadInd m rd off) := ⟨rfl, fun _ => rfl, rfl, rfl, fun _ h => h⟩

theorem bran (c : Cond) (t : Nat) :
    Statement (.bran c t) := ⟨rfl, fun _ => rfl, rfl, rfl, fun _ h => h⟩

/-- The immediate 0 of SHFT's expansion fits every field. -/
theorem immFits_zero (L : Layout) : L.immFits 0 = true := by
  unfold Layout.immFits Layout.extendImm
  cases L.immExt <;> simp [BitVec.signExtend]

theorem shft (rd : Reg) (sh : Shift) :
    Statement (.shft rd sh) := ⟨rfl, fun _ => rfl, rfl, rfl, fun L _ => immFits_zero L⟩

/-- A row of ST or SO shares everything with the instruction it is a field of. -/
theorem of_carrier {i : Instr} (h : Carrier) (o : Override) (sh : Shift) (hc : i.core = h.instr o sh)
    (he : ∀ L : Layout, L.fieldsOf i = L.carrierFields o sh h) (hs : shiftOfInstr i = some sh)
    (hd : instrDest i = carrierDest h) (hf : ∀ L : Layout, L.fits i = L.carrierFits h) : Statement i := by
  unfold Statement encode
  rw [hc, hs, hd]
  refine ⟨?_, fun L => ?_, ?_, ?_, fun L hfit => ?_⟩
  · cases h <;> rfl
  · rw [he]; cases h <;> rfl
  · cases h <;> rfl
  · cases h <;> rfl
  · rw [hf] at hfit; cases h <;> exact hfit

theorem stNone (h : Carrier) (o : Override) (so : CountMode) (sc : BitVec 4) :
    Statement (.stNone h o so sc) := 
  of_carrier h o ⟨.noShift, so, sc⟩ rfl (fun _ => rfl) rfl rfl fun _ => rfl

theorem stLsl (h : Carrier) (o : Override) (so : CountMode) (sc : BitVec 4) :
    Statement (.stLsl h o so sc) := 
  of_carrier h o ⟨.lsl, so, sc⟩ rfl (fun _ => rfl) rfl rfl fun _ => rfl

theorem stLsr (h : Carrier) (o : Override) (so : CountMode) (sc : BitVec 4) :
    Statement (.stLsr h o so sc) := 
  of_carrier h o ⟨.lsr, so, sc⟩ rfl (fun _ => rfl) rfl rfl fun _ => rfl

theorem stAsl (h : Carrier) (o : Override) (so : CountMode) (sc : BitVec 4) :
    Statement (.stAsl h o so sc) := 
  of_carrier h o ⟨.asl, so, sc⟩ rfl (fun _ => rfl) rfl rfl fun _ => rfl

theorem stAsr (h : Carrier) (o : Override) (so : CountMode) (sc : BitVec 4) :
    Statement (.stAsr h o so sc) := 
  of_carrier h o ⟨.asr, so, sc⟩ rfl (fun _ => rfl) rfl rfl fun _ => rfl

theorem stRtl (h : Carrier) (o : Override) (so : CountMode) (sc : BitVec 4) :
    Statement (.stRtl h o so sc) := 
  of_carrier h o ⟨.rtl, so, sc⟩ rfl (fun _ => rfl) rfl rfl fun _ => rfl

theorem stRtr (h : Carrier) (o : Override) (so : CountMode) (sc : BitVec 4) :
    Statement (.stRtr h o so sc) := 
  of_carrier h o ⟨.rtr, so, sc⟩ rfl (fun _ => rfl) rfl rfl fun _ => rfl

theorem stReserved (h : Carrier) (o : Override) (so : CountMode) (sc : BitVec 4) :
    Statement (.stReserved h o so sc) := 
  of_carrier h o ⟨.reserved, so, sc⟩ rfl (fun _ => rfl) rfl rfl fun _ => rfl

theorem soLiteral (h : Carrier) (o : Override) (st : ShiftType) (sc : BitVec 4) :
    Statement (.soLiteral h o st sc) := 
  of_carrier h o ⟨st, .literal, sc⟩ rfl (fun _ => rfl) rfl rfl fun _ => rfl

theorem soRegister (h : Carrier) (o : Override) (st : ShiftType) (sc : BitVec 4) :
    Statement (.soRegister h o st sc) := 
  of_carrier h o ⟨st, .register, sc⟩ rfl (fun _ => rfl) rfl rfl fun _ => rfl

end Sys2Proof.Laws.CoreForm
end

