-- ==== Sys2Proof/Laws/Step.lean ====
section
/-! SUPPORT. What a step and the operand forms can do, in the terms of Safety.lean. -/

namespace Sys2Proof.Machine

/-- What a step can do (R221, R243). -/
theorem step_cases (s : State) :
    (s.prog[s.pc]? = none ∧ ∃ r, step s = .refused r) ∨
    (∃ i why, s.prog[s.pc]? = some i ∧ i.illFormed? s.params = some why ∧ step s = .refused (.illFormed why)) ∨
    (∃ i, s.prog[s.pc]? = some i ∧ i.illFormed? s.params = none ∧ step s = exec i s) := by
  unfold step State.fetch State.admits
  cases h : s.prog[s.pc]? with
  | none => left; by_cases hp : s.pc = s.prog.length <;> simp [hp]
  | some i =>
    right
    cases hi : i.illFormed? s.params with
    | some why => exact .inl ⟨i, why, rfl, hi, by simp [hi]⟩
    | none => exact .inr ⟨i, rfl, hi, by simp [hi]⟩

/-- `CountFromReg` delivers exactly the counts of `CountOf` (R107). -/
theorem countFromReg_ok (p : CountPolicy) (w : Word) (n : Nat) : countFromReg p w = .ok n ↔ CountOf p w n := by
  unfold countFromReg CountOf
  by_cases hw : w.toNat ≤ 15
  · have : ¬ 16 ≤ w.toNat := by omega
    simp [hw, this, eq_comm]
  · have h2 : 16 ≤ w.toNat := by omega
    cases p <;> simp [hw, h2, eq_comm]
    omega

/-- The count of the shift stage is exactly `CountIs` (R105). -/
theorem shiftCount_ok (s : State) (sh : Shift) (n : Nat) : s.shiftCount sh = .ok n ↔ CountIs s sh n := by
  unfold State.shiftCount CountIs
  by_cases h0 : sh.st = .noShift
  · simp [h0, eq_comm]
  · cases hso : sh.so with
    | literal => simp [h0, eq_comm]
    | register =>
      cases hr : regOfNumber s.params.regIndex sh.sc with
      | none => simp [h0]
      | some rc => simp [h0, countFromReg_ok]

/-- The shift stage delivers exactly what `Shifted` says (R109). -/
theorem shiftStage_ok (s : State) (first : Reg) (sh : Shift) (r : ShiftResult) :
    s.shiftStage first sh = .ok r ↔ Shifted s first sh r := by
  unfold State.shiftStage Shifted
  by_cases hr : sh.st = .reserved
  · simp [hr, shift]
  · cases hc : s.shiftCount sh with
    | error e =>
      have : ∀ n, ¬ CountIs s sh n := fun n h => by
        rw [← shiftCount_ok, hc] at h; cases h
      simp [hr, this]
    | ok n =>
      have hn : ∀ m, CountIs s sh m ↔ m = n := fun m => by
        rw [← shiftCount_ok, hc]; simp [eq_comm]
      obtain ⟨q, hq⟩ := shift_isSome (s.getReg first) n s.sr.c hr
      simp [hr, hn, hq]

/-- The shift stage faults where `ShiftFaults` says so (R109, R222). -/
theorem shiftStage_fault {s : State} {sh : Shift} {f : Fault} (first : Reg) (h : ShiftFaults s sh f) :
    s.shiftStage first sh = .error (.fault f) := by
  rcases h with ⟨h, rfl⟩ | ⟨h0, hr, hso, hp, rc, hrc, hw, rfl⟩
  · simp [State.shiftStage, h]
  · have : ¬ (s.getReg rc).toNat ≤ 15 := by omega
    simp [State.shiftStage, State.shiftCount, h0, hr, hso, hp, hrc, countFromReg, this]

end Sys2Proof.Machine
end

