-- ==== Sys2Proof/Tests/Slice0.lean ====
section
/-! SUPPORT. Tests against the spec's own vectors (95_test_vectors.md: S, V, F, A, B, X), the smoke test of the
program check, decoding of words written out bit by bit, and a witness for every statement with hypotheses. -/

namespace Sys2Proof.Tests

open Sys2Proof Sys2Proof.Machine

/-! ### Small states and what is read from an outcome -/

/-- Registers r1 to r5, and flags in the order C Z N V; everything else as after reset. -/
def mk (v1 v2 v3 v4 v5 : Word) (f : SR) : State :=
  { State.reset with regs := ⟨v1, v2, v3, v4, v5, 0, 0⟩, sr := f }

/-- Flags 0 0 0 0. -/
def clear : SR := ⟨false, false, false, false⟩

/-- No postamble (R67). -/
def none' : Shift := Shift.absent

/-- A postamble with a literal count. -/
def lit (st : ShiftType) (n : BitVec 4) : Shift := ⟨st, .literal, n⟩

/-- A postamble with a count register, under the register numbers of reset (log 8). -/
def byReg (st : ShiftType) (r : Reg) : Shift := ⟨st, .register, Params.initial.regIndex.get r⟩

/-- The register after a step that gives a next state. -/
def regAfter (o : Host.Outcome State Fault Refusal) (r : Reg) : Option Word :=
  match o with
  | .next t => some (t.getReg r)
  | _ => none

/-- Z and N after. -/
def znAfter (o : Host.Outcome State Fault Refusal) : Option (Bool × Bool) :=
  match o with
  | .next t => some (t.sr.z, t.sr.n)
  | _ => none

/-- C after. -/
def cAfter (o : Host.Outcome State Fault Refusal) : Option Bool :=
  match o with
  | .next t => some t.sr.c
  | _ => none

/-- V after. -/
def vAfter (o : Host.Outcome State Fault Refusal) : Option Bool :=
  match o with
  | .next t => some t.sr.v
  | _ => none

/-- The fault of a step that faults. -/
def faultOf (o : Host.Outcome State Fault Refusal) : Option Fault :=
  match o with
  | .fault f => some f
  | _ => none

/-- The refusal of a step that is refused. -/
def refusalOf (o : Host.Outcome State Fault Refusal) : Option Refusal :=
  match o with
  | .refused r => some r
  | _ => none

/-- The program counter after. -/
def pcAfter (o : Host.Outcome State Fault Refusal) : Option Nat :=
  match o with
  | .next t => some t.pc
  | _ => none

/-- `a` after. -/
def aAfter (o : Host.Outcome State Fault Refusal) : Option Nat :=
  match o with
  | .next t => some t.a
  | _ => none

/-! ### The shifter: vectors V1 to V50 -/

/-- One line of the table 2.1: `vout` is `.any` where the table says either. -/
def vec (st : ShiftType) (v : Word) (n : Nat) (cin : Bool) (res : Word) (cout : Option Bool) (vout : VOut) : Bool :=
  decide (shift st v n cin = some ⟨res, cout, vout⟩)

theorem test_shift_none_V1 : vec .noShift 0x1234 7 true 0x1234 none .unspec = true := by decide

theorem test_shift_lsl_V2_V8 :
    (vec .lsl 0x0001 2 false 0x0004 (some false) .unspec && vec .lsl 0x8001 1 false 0x0002 (some true) .unspec &&
     vec .lsl 0xFFFF 15 false 0x8000 (some true) .unspec && vec .lsl 0x4000 2 true 0x0000 (some true) .unspec &&
     vec .lsl 0x0001 15 true 0x8000 (some false) .unspec && vec .lsl 0x0001 10 false 0x0400 (some false) .unspec &&
     vec .lsl 0x1234 0 true 0x1234 none .unspec) = true := by decide

theorem test_shift_lsr_V9_V15 :
    (vec .lsr 0x8000 15 true 0x0001 (some false) .unspec && vec .lsr 0x00FF 4 false 0x000F (some true) .unspec &&
     vec .lsr 0xFF00 8 true 0x00FF (some false) .unspec && vec .lsr 0x0001 1 false 0x0000 (some true) .unspec &&
     vec .lsr 0xABCD 8 false 0x00AB (some true) .unspec && vec .lsr 0xABCD 3 false 0x1579 (some true) .unspec &&
     vec .lsr 0x1234 0 true 0x1234 none .unspec) = true := by decide

theorem test_shift_asl_V16_V26 :
    (vec .asl 0x4000 1 false 0x8000 (some false) (.bit true) && vec .asl 0xC000 1 false 0x8000 (some true) (.bit false) &&
     vec .asl 0x2000 1 true 0x4000 (some false) (.bit false) && vec .asl 0x8000 1 true 0x0000 (some true) (.bit true) &&
     vec .asl 0xE000 2 false 0x8000 (some true) (.bit false) && vec .asl 0x4000 2 false 0x0000 (some true) .any &&
     vec .asl 0x6000 3 false 0x0000 (some true) .any && vec .asl 0xFFFF 15 false 0x8000 (some true) (.bit false) &&
     vec .asl 0x0001 15 false 0x8000 (some false) (.bit true) && vec .asl 0x0003 15 false 0x8000 (some true) (.bit true) &&
     vec .asl 0x1234 0 true 0x1234 none (.bit false)) = true := by decide

theorem test_shift_asr_V27_V34 :
    (vec .asr 0x8000 1 true 0xC000 (some false) .unspec && vec .asr 0x8000 15 false 0xFFFF (some false) .unspec &&
     vec .asr 0xFFFB 1 false 0xFFFD (some true) .unspec && vec .asr 0x7FFF 3 false 0x0FFF (some true) .unspec &&
     vec .asr 0xFFF9 2 true 0xFFFE (some false) .unspec && vec .asr 0x0007 2 false 0x0001 (some true) .unspec &&
     vec .asr 0x7FFF 15 false 0x0000 (some true) .unspec && vec .asr 0x8000 0 true 0x8000 none .unspec) = true := by
  decide

theorem test_shift_rtl_V35_V41 :
    (vec .rtl 0x8000 1 false 0x0000 (some true) .unspec && vec .rtl 0x0000 1 true 0x0001 (some false) .unspec &&
     vec .rtl 0x1234 4 true 0x2348 (some true) .unspec && vec .rtl 0x1234 4 false 0x2340 (some true) .unspec &&
     vec .rtl 0xFFFF 15 false 0xBFFF (some true) .unspec && vec .rtl 0x8001 15 true 0xE000 (some false) .unspec &&
     vec .rtl 0x1234 0 true 0x1234 none .unspec) = true := by decide

theorem test_shift_rtr_V42_V49 :
    (vec .rtr 0x0001 1 false 0x0000 (some true) .unspec && vec .rtr 0x0000 1 true 0x8000 (some false) .unspec &&
     vec .rtr 0x1234 4 true 0x9123 (some false) .unspec && vec .rtr 0x1234 4 false 0x8123 (some false) .unspec &&
     vec .rtr 0xFFFF 15 false 0xFFFD (some true) .unspec && vec .rtr 0x8001 15 true 0x0007 (some false) .unspec &&
     vec .rtr 0x0002 1 false 0x0001 (some false) .unspec && vec .rtr 0x1234 0 true 0x1234 none .unspec) = true := by
  decide

theorem test_shift_reserved_V50 : shift .reserved 0x1234 1 true = none := by decide

/-! ### The ALU instructions -/

/-- A1: FFFF + 1 wraps, flags 1 1 0 0. -/
theorem test_addi_wraps_A1 :
    let o := exec (.addi .always .a .r1 1 none') (mk 0xFFFF 0 0 0 0 clear)
    regAfter o .r1 = some 0 ∧ znAfter o = some (true, false) ∧ cAfter o = some true ∧ vAfter o = some false := by
  decide

/-- F9: the rotate reads C under `[N]`, and no flag changes. -/
theorem test_addi_rotate_under_n_F9 :
    let o := exec (.addi .always .n .r1 0 (lit .rtl 1)) (mk 0x8001 0 0 0 0 ⟨true, true, false, true⟩)
    regAfter o .r1 = some 3 ∧ znAfter o = some (true, false) ∧ cAfter o = some true ∧ vAfter o = some true := by decide

/-- S1: in the three-operand form with the destination repeated, it is the old r1 that is shifted, not r2. -/
theorem test_addr_shifts_first_S1 :
    regAfter (exec (.addr .always .a .r1 .r1 .r2 (lit .lsl 1)) (mk 3 0x10 0 0 0 clear)) .r1 = some 0x16 := by decide

/-- A5: 8000 + 8000, flags 1 1 0 1. -/
theorem test_addr_overflow_A5 :
    let o := exec (.addr .always .a .r1 .r2 .r3 none') (mk 0 0x8000 0x8000 0 0 clear)
    regAfter o .r1 = some 0 ∧ znAfter o = some (true, false) ∧ cAfter o = some true ∧ vAfter o = some true := by decide

/-- S3: the register is shifted, not the immediate. -/
theorem test_orri_shifts_register_S3 :
    let o := exec (.orri .always .a .r3 1 (lit .lsl 10)) (mk 0 0 3 0 0 clear)
    regAfter o .r3 = some 0x0C01 ∧ znAfter o = some (false, false) := by decide

/-- A6. -/
theorem test_orri_A6 : regAfter (exec (.orri .always .a .r3 0x0F none') (mk 0 0 0xF0 0 0 clear)) .r3 = some 0xFF := by
  decide

/-- A7. -/
theorem test_orrr_A7 :
    let o := exec (.orrr .always .a .r1 .r2 .r3 (lit .lsl 8)) (mk 0 0xFF 0xF 0 0 clear)
    regAfter o .r1 = some 0xFF0F ∧ znAfter o = some (false, true) := by decide

/-- A9. -/
theorem test_andi_A9 :
    let o := exec (.andi .always .a .r2 0x0F (lit .lsr 8)) (mk 0 0xABCD 0 0 0 clear)
    regAfter o .r2 = some 0x0B ∧ znAfter o = some (false, false) := by decide

/-- A10. -/
theorem test_andr_A10 :
    let o := exec (.andr .always .a .r1 .r1 .r3 none') (mk 0xFF00 0 0xFF 0 0 clear)
    regAfter o .r1 = some 0 ∧ znAfter o = some (true, false) := by decide

/-- S22: `XORR r3, r4, r3` reads the old r3. -/
theorem test_xorr_reads_before_write_S22 :
    let o := exec (.xorr .always .a .r3 .r4 .r3 none') (mk 0 0 0x10 0xFFFF 0 clear)
    regAfter o .r3 = some 0xFFEF ∧ znAfter o = some (false, true) := by decide

/-- A12. -/
theorem test_xorr_A12 :
    regAfter (exec (.xorr .always .a .r1 .r2 .r3 (lit .asr 15)) (mk 0 0x8000 1 0 0 clear)) .r1 = some 0xFFFE := by decide

/-- A13 and S29: the comparison's flags under `[A]`, the shift's under `[S]`. -/
theorem test_cmpi_A13_S29 :
    znAfter (exec (.cmpi .always .a .r2 4 (lit .lsl 2)) (mk 0 1 0 0 0 clear)) = some (true, false) ∧
    (let o := exec (.cmpi .always .s .r3 0 (lit .lsr 4)) (mk 0 0 0x000F 0 0 clear)
     znAfter o = some (true, false) ∧ cAfter o = some true ∧ regAfter o .r3 = some 0x000F) := by decide

/-- A14: 1 - 5 is negative. -/
theorem test_cmpi_A14 : znAfter (exec (.cmpi .always .a .r2 5 none') (mk 0 1 0 0 0 clear)) = some (false, true) := by
  decide

/-- A17, and S31 with r5 = 6. -/
theorem test_cmpr_A17_S31 :
    znAfter (exec (.cmpr .always .a .r4 .r5 (lit .lsl 2)) (mk 0 0 0 5 0x14 clear)) = some (true, false) ∧
    znAfter (exec (.cmpr .always .a .r4 .r5 none') (mk 0 0 0 5 6 clear)) = some (false, true) := by decide

/-- A19, A20. -/
theorem test_tsar_A19_A20 :
    (let o := exec (.tsar .always .a .r1 .r3 none') (mk 0x100 0 0x10 0 0 ⟨true, true, true, true⟩)
     znAfter o = some (true, false) ∧ regAfter o .r1 = some 0x100) ∧
    znAfter (exec (.tsar .always .a .r1 .r3 none') (mk 0x8000 0 0x8000 0 0 clear)) = some (false, true) := by decide

/-- A21 and S34: 1001 overflows, F001 does not. -/
theorem test_shft_A21_S34 :
    (let o := exec (.shft .r1 (lit .asl 3)) (mk 0x1001 0 0 0 0 clear)
     regAfter o .r1 = some 0x8008 ∧ znAfter o = some (false, true) ∧ cAfter o = some false ∧ vAfter o = some true) ∧
    (let o := exec (.shft .r1 (lit .asl 3)) (mk 0xF001 0 0 0 0 clear)
     regAfter o .r1 = some 0x8008 ∧ znAfter o = some (false, true) ∧ cAfter o = some true ∧ vAfter o = some false) := by
  decide

/-- A22: a count of 0 keeps C. -/
theorem test_shft_count_zero_A22 :
    let o := exec (.shft .r1 (lit .lsl 0)) (mk 0x8000 0 0 0 0 ⟨true, true, false, false⟩)
    regAfter o .r1 = some 0x8000 ∧ znAfter o = some (false, true) ∧ cAfter o = some true := by decide

/-! ### Instructions read as rows of the fields ST and SO -/

/-- F6: `ADDI[S] r1, #1` without a shift: Z and N of the unshifted register, C kept. -/
theorem test_st_none_F6 :
    let o := exec (.stNone (.addi .r1 1) .s .literal 0) (mk 0x8001 0 0 0 0 ⟨false, true, false, true⟩)
    regAfter o .r1 = some 0x8002 ∧ znAfter o = some (false, true) ∧ cAfter o = some false := by decide

/-- S28: Z is that of the shifted value, not of the sum. -/
theorem test_st_lsl_S28 :
    let o := exec (.stLsl (.addi .r2 1) .s .literal 2) (mk 0 0xC000 0 0 0 clear)
    regAfter o .r2 = some 1 ∧ znAfter o = some (true, false) ∧ cAfter o = some true := by decide

/-- S5: the shift's carry-out is discarded under the default. -/
theorem test_st_lsr_S5 :
    let o := exec (.stLsr (.addi .r3 0) .a .literal 8) (mk 0 0 0xABCD 0 0 clear)
    regAfter o .r3 = some 0xAB ∧ cAfter o = some false := by decide

/-- S6. -/
theorem test_st_asl_S6 :
    let o := exec (.stAsl (.addi .r1 0) .s .literal 1) (mk 0x4000 0 0 0 0 clear)
    regAfter o .r1 = some 0x8000 ∧ znAfter o = some (false, true) ∧ vAfter o = some true := by decide

/-- S7. -/
theorem test_st_asr_S7 :
    regAfter (exec (.stAsr (.addi .r1 0) .a .literal 2) (mk 0xFFF9 0 0 0 0 clear)) .r1 = some 0xFFFE := by decide

/-- S9: the old carry enters bit 0, the rotate's own carry-out is discarded. -/
theorem test_st_rtl_S9 :
    let o := exec (.stRtl (.addi .r1 0) .a .literal 1) (mk 0x8000 0 0 0 0 ⟨true, false, false, false⟩)
    regAfter o .r1 = some 1 ∧ cAfter o = some false := by decide

/-- S11. -/
theorem test_st_rtr_S11 :
    regAfter (exec (.stRtr (.addi .r1 0) .a .literal 1) (mk 0 0 0 0 0 ⟨true, false, false, false⟩)) .r1 =
      some 0x8000 := by decide

/-- X1 and X6: the reserved type faults, before the count register is looked at. -/
theorem test_st_reserved_X1_X6 :
    faultOf (exec (.stReserved (.addi .r1 0) .a .literal 1) (mk 1 0 0 0 0 clear)) = some .reservedShiftType ∧
    faultOf (exec (.stReserved (.addr .r1 .r2 .r3) .a .register 3) (mk 0 0 0 0x20 0 clear)) =
      some .reservedShiftType := by
  decide

/-- S13. -/
theorem test_so_literal_S13 :
    let o := exec (.soLiteral (.addi .r1 1) .a .lsl 2) (mk 3 0x7777 0 0 0 clear)
    regAfter o .r1 = some 0xD ∧ regAfter o .r2 = some 0x7777 := by decide

/-- S15 with r3, r4 in place of r6, r7: FF00 >> 4 arithmetically, plus 10, is 0 with C and Z. -/
theorem test_so_register_S15 :
    let o := exec (.soRegister (.addr .r5 .r2 .r3) .a .asr 3) (mk 0 0xFF00 0x10 4 0 clear)
    regAfter o .r5 = some 0 ∧ znAfter o = some (true, false) ∧ cAfter o = some true := by decide

/-- X2, X3, X4: a count of 16 or more faults, 15 does not. -/
theorem test_count_register_X2_X4 :
    faultOf (exec (.addr .always .a .r1 .r2 .r3 (byReg .lsl .r4)) (mk 0 1 0 0x10 0 clear)) =
      some (.shiftCountOutOfRange 0x10) ∧
    faultOf (exec (.addr .always .a .r1 .r2 .r3 (byReg .lsl .r4)) (mk 0 1 0 0xFFFF 0 clear)) =
      some (.shiftCountOutOfRange 0xFFFF) ∧
    regAfter (exec (.addr .always .a .r1 .r2 .r3 (byReg .lsl .r4)) (mk 0 1 0 0xF 0 clear)) .r1 = some 0x8000 := by decide

/-- X5: with ST = 000 the count register is not read. -/
theorem test_count_register_not_read_X5 :
    regAfter (exec (.addr .always .a .r1 .r2 .r3 (byReg .noShift .r4)) (mk 0 3 1 0x20 0 clear)) .r1 = some 4 := by decide

/-- A3: one register as destination, first source and count. -/
theorem test_own_count_A3 :
    regAfter (exec (.addi .always .a .r3 0 (byReg .lsl .r3)) (mk 0 0 3 0 0 clear)) .r3 = some 0x18 := by decide

/-! ### LOAD and BRAN -/

/-- B1; the flags are draws. -/
theorem test_load_reg_B1 : regAfter (exec (.loadReg .plain .r1 .r2) (mk 0 0x1234 0 0 0 clear)) .r1 = some 0x1234 := by
  decide

/-- B2. -/
theorem test_load_imm_B2 : regAfter (exec (.loadImm .plain .r4 0xFFFF) State.reset) .r4 = some 0xFFFF := by decide

/-- B3. -/
theorem test_load_ind_B3 :
    let o := exec (.loadInd .n .r4 0)
      { mk 0 0 0 0 0 ⟨true, false, true, false⟩ with a := 0x100, mem := [(0x100, 0xBEEF)] }
    regAfter o .r4 = some 0xBEEF ∧ aAfter o = some 0x101 ∧ znAfter o = some (false, true) ∧ cAfter o = some true := by
  decide

/-- B4: `a` wraps at `2^AWIDTH`. -/
theorem test_load_ind_wraps_B4 :
    let o := exec (.loadInd .n .r4 0) { State.reset with a := 0xFFFFFF, mem := [(0xFFFFFF, 1)] }
    regAfter o .r4 = some 1 ∧ aAfter o = some 0 := by decide

/-- B5, B6, B7, B10. -/
theorem test_bran_B5_B10 :
    pcAfter (exec (.bran .eq 7) { State.reset with pc := 3, sr := ⟨false, true, false, false⟩ }) = some 7 ∧
    pcAfter (exec (.bran .eq 7) { State.reset with pc := 3 }) = some 4 ∧
    pcAfter (exec (.bran .ne 7) { State.reset with pc := 3 }) = some 7 ∧
    pcAfter (exec (.bran .always 7) { State.reset with pc := 3 }) = some 7 := by decide

/-- B8, B9, B11. -/
theorem test_bran_B8_B11 :
    pcAfter (exec (.bran .ns 7) { State.reset with pc := 3, sr := ⟨false, false, true, false⟩ }) = some 7 ∧
    pcAfter (exec (.bran .ns 7) { State.reset with pc := 3 }) = some 4 ∧
    refusalOf (exec (.bran .ge 7) State.reset) = some (.illFormed .conditionGeNotSupplied) := by decide

/-- Parameters that supply `>=` as N = V (K8) with a borrow-based `AluCV(CMP)`. -/
def withGe : Params :=
  { Params.initial with
    condGE := some 0x9999
    aluCV := { Params.initial.aluCV with cmp := some ⟨.borrow, .and (.xor (.sv 15) (.second 15)) (.xor (.res 15) (.sv 15))⟩ } }

/-- R205: `>=` needs both; with both supplied S33's compare of 5 with 3 branches, of 3 with 5 does not. -/
theorem test_bran_ge_supplied_S33 :
    refusalOf (exec (.bran .ge 7) { State.reset with params := { Params.initial with condGE := some 0x9999 } }) =
      some (.illFormed .conditionGeNotSupplied) ∧
    (∀ c ∈ [((5 : Word), (3 : Word), 7), (3, 5, 1)],
      (match exec (.cmpr .always .a .r1 .r2 none') { mk c.1 c.2.1 0 0 0 clear with params := withGe } with
        | .next t => pcAfter (exec (.bran .ge 7) { t with pc := 0 })
        | _ => none) = some c.2.2) := by decide

/-- R24, K8: the flags in the status register, Z N C V from bit 0; the next bit is unmodelled. -/
theorem test_sr_bits :
    let s : State := { State.reset with sr := ⟨true, false, false, true⟩ }
    [0, 1, 2, 3, 4].map s.srBitAt = [some false, some false, some true, some true, none] := by decide

/-- R22, K1: with `ILEN` 2 statement 3 stands at address 6, and no statement at 7. -/
theorem test_ilen :
    defaultLayout.addressOf 3 = 6 ∧ defaultLayout.statementAt 6 = some 3 ∧ defaultLayout.statementAt 7 = none := by decide

/-! ### The program check (R221): an ill-formed term for each reason -/

theorem smoke_immediate_out_of_range :
    (Instr.addi .always .a .r1 200 none').illFormed? Params.initial = some .immediateOutOfRange := by decide

theorem smoke_immediate_at_the_edge :
    (Instr.addi .always .a .r1 127 none').illFormed? Params.initial = none ∧
    (Instr.addi .always .a .r1 128 none').illFormed? Params.initial = some .immediateOutOfRange := by decide

theorem smoke_condition_on_non_branch :
    (Instr.addi .eq .a .r1 1 none').illFormed? Params.initial = some .conditionOnNonBranch := by decide

theorem smoke_condition_ge_not_supplied :
    (Instr.bran .ge 0).illFormed? Params.initial = some .conditionGeNotSupplied := by decide

theorem smoke_offset_not_zero : (Instr.loadInd .n .r4 2).illFormed? Params.initial = some .offsetNotZero := by decide

theorem smoke_count_register_not_admitted :
    (Instr.addr .always .a .r1 .r2 .r3 ⟨.lsl, .register, 15⟩).illFormed? Params.initial =
      some .countRegisterNotAdmitted := by decide

/-- R221, U2: a SHFT with ST = 111 is no refusal but the fault. -/
theorem smoke_shft_reserved_faults :
    (Instr.shft .r1 (lit .reserved 1)).illFormed? Params.initial = none ∧
    faultOf (step { State.reset with prog := [.shft .r1 (lit .reserved 1)] }) = some .reservedShiftType := by decide

theorem smoke_row_of_ill_formed_host :
    (Instr.stLsl (.andi .r1 0xFFFF) .a .literal 1).illFormed? Params.initial = some .immediateOutOfRange := by decide

/-- A step refuses an ill-formed statement, and says where a run ends. -/
theorem smoke_step_refuses :
    refusalOf (step { State.reset with prog := [.addi .eq .a .r1 1 none'] }) =
      some (.illFormed .conditionOnNonBranch) ∧
    refusalOf (step State.reset) = some .runEnded ∧
    refusalOf (step { State.reset with pc := 1 }) = some .pcPastEnd := by decide

/-! ### Decoding: the table's codes, and words of the default layout (K1, log 23) written out field by field:
opcode 6, R1 4, then R2 4 and R3 4 or the immediate 8, SO 1, ST 3, SC 4, override 2, condition 4 -/

/-- The eight codes of ST (R63), as opcode-table words. -/
theorem test_decode_st_rows :
    decodeTableWord 8 0b000 = some (.stNone (.addi .r1 0) .a .literal 0) ∧
    decodeTableWord 8 0b001 = some (.stLsl (.addi .r1 0) .a .literal 0) ∧
    decodeTableWord 8 0b010 = some (.stLsr (.addi .r1 0) .a .literal 0) ∧
    decodeTableWord 8 0b011 = some (.stAsl (.addi .r1 0) .a .literal 0) ∧
    decodeTableWord 8 0b100 = some (.stAsr (.addi .r1 0) .a .literal 0) ∧
    decodeTableWord 8 0b101 = some (.stRtl (.addi .r1 0) .a .literal 0) ∧
    decodeTableWord 8 0b110 = some (.stRtr (.addi .r1 0) .a .literal 0) ∧
    decodeTableWord 8 0b111 = some (.stReserved (.addi .r1 0) .a .literal 0) := by decide

/-- The two codes of SO (R64). -/
theorem test_decode_so_rows :
    decodeTableWord 1 0 = some (.soLiteral (.addi .r1 0) .a .noShift 0) ∧
    decodeTableWord 1 1 = some (.soRegister (.addi .r1 0) .a .noShift 0) ∧
    decodeTableWord 0 0 = some (.addi .always .a .r1 0 none') := by decide

/-- The placed row runs as the first instruction after reset. -/
theorem test_step_runs_placed_row :
    regAfter (step (State.reset.withFetchWord 8 0b101)) .r1 = some 0 ∧
    faultOf (step (State.reset.withFetchWord 8 0b111)) = some .reservedShiftType := by decide

theorem test_decode_short_immediate :
    decodeTableWord 32 0b00000000000000001010001001000000 = some (.addi .always .a .r1 2 ⟨.noShift, .register, 9⟩) ∧
    decodeTableWord 32 0b00001000100000000000010010010000 = some (.orri .always .s .r3 0 ⟨.lsl, .literal, 2⟩) ∧
    decodeTableWord 32 0b00010000010000001100100011100000 = some (.andi .always .n .r2 3 ⟨.lsr, .literal, 3⟩) ∧
    decodeTableWord 32 0b00011101100000000111110000000001 = some (.cmpi .eq .a .r7 1 ⟨.reserved, .register, 0⟩) := by
  decide

theorem test_decode_register :
    decodeTableWord 32 0b00000100000001001000110001000000 = some (.addr .always .a .r1 .r2 .r3 ⟨.asl, .literal, 1⟩) ∧
    decodeTableWord 32 0b00001100000001001000000000000000 = some (.orrr .always .a .r1 .r2 .r3 none') ∧
    decodeTableWord 32 0b00010100000000001001000000010000 = some (.andr .always .s .r1 .r1 .r3 ⟨.asr, .literal, 0⟩) ∧
    decodeTableWord 32 0b00011000100011001011010000000000 = some (.xorr .always .a .r3 .r4 .r3 ⟨.rtl, .register, 0⟩) ∧
    decodeTableWord 32 0b00100000110011010001101111000000 = some (.cmpr .always .a .r4 .r5 ⟨.rtr, .literal, 15⟩) ∧
    decodeTableWord 32 0b00100100000000001000000000000000 = some (.tsar .always .a .r1 .r3 none') := by decide

theorem test_decode_load_bran :
    decodeTableWord 32 0b00101000000001000000000000000000 = some (.loadReg .plain .r1 .r2) ∧
    decodeTableWord 32 0b00101100111111111111111111000000 = some (.loadImm .plain .r4 0xFFFF) ∧
    decodeTableWord 32 0b00110000110000000000000000100000 = some (.loadInd .n .r4 0) ∧
    decodeTableWord 32 0b00110100000000000000000111000010 = some (.bran .ne 7) := by decide

/-- What the decoder rejects: SHFT has no word of its own, an opcode, a register, an override and a stray bit. -/
theorem test_decode_rejects :
    decode defaultLayout (0b111111 <<< 26) = .error .unknownOpcode ∧
    decode defaultLayout (7 <<< 22) = .error (.registerNotAdmitted 7) ∧
    decode defaultLayout (3 <<< 4) = .error .unknownOverride ∧
    decode defaultLayout (0b101000 <<< 24 ||| 1 <<< 10) = .error .strayBits ∧
    decode defaultLayout (1 <<< 32) = .error .tooLong ∧
    decodeBytes defaultLayout [0, 0, 0] = .error .truncated := by decide

/-! ### The assembler (X7 to X14, S-lines) -/

/-- The assembler with the register numbers of reset and one label. -/
def asm (text : String) : Except AsmError Instr :=
  assemble Params.initial.regIndex [(['L'], 7)] text.toList

theorem test_asm_refusals_X7_X14 :
    asm "ADDI r1, #0, ROL #1" = .error .rolSpelling ∧ asm "ADDI r1, #200" = .error .immediateOutOfRange ∧
    asm "ADDI r8, #1" = .error .registerNotAdmitted ∧ asm "LOAD r1, r2, LSL #1" = .error .shiftNotShown ∧
    asm "LOAD[S] r1, r2" = .error .modifierNotAdmitted ∧ asm "ADDI|== r1, #1" = .error .conditionOnNonBranch ∧
    asm "LOAD r4, (#2, a)+" = .error .offsetNotZero ∧ asm "SUBI r1, #1" = .error .unknownMnemonic := by decide

theorem test_asm_forms :
    asm "ADDR r1, r2, LSL #1" = .ok (.addr .always .a .r1 .r1 .r2 (lit .lsl 1)) ∧
    asm "ADDR r4, r5, r6, ASR r7" = .ok (.addr .always .a .r4 .r5 .r6 (byReg .asr .r7)) ∧
    asm "ANDI r2, #0x0F ; Mask to 4 bits" = .ok (.andi .always .a .r2 15 none') ∧
    asm "CMPI r4, r5" = .ok (.cmpr .always .a .r4 .r5 none') ∧
    asm "SHFT r1, ASL #3" = .ok (.orri .always .s .r1 0 (lit .asl 3)) := by decide

theorem test_asm_load_bran :
    asm "LOAD[N] r4, (#0, a)+ ; Load next value" = .ok (.loadInd .n .r4 0) ∧
    asm "LOAD r4, #0xFFFF" = .ok (.loadImm .plain .r4 0xFFFF) ∧ asm "LOAD r1, r2" = .ok (.loadReg .plain .r1 .r2) ∧
    asm "BRAN|!= L" = .ok (.bran .ne 7) ∧ asm "BRAN L" = .ok (.bran .always 7) := by decide

/-- R70: the literal count is decimal. R73: blanks (log 26); comment and blank lines of a program hold no statement. -/
theorem test_asm_lines :
    asm "ADDI r1, #0, LSL #0xF" = .error .badLine ∧ asm "ADDI r1, #0, LSL #15" = .ok (.addi .always .a .r1 0 (lit .lsl 15)) ∧
    asm "ADDI[S]r1, # 2" = .ok (.addi .always .s .r1 2 none') ∧ asm "; Set bit 10" = .error .noStatement ∧
    assembleProgram Params.initial.regIndex [] ["; Multiply r1 by 4".toList, "ADDI r1, #0, LSL #2".toList, " ".toList] =
      .ok [.addi .always .a .r1 0 (lit .lsl 2)] := by decide

/-! ### Witnesses: concrete states and operands that meet the hypotheses of the statements -/

/-- Counts at both ends of the range of R121 to R126. -/
theorem witness_counts : (1 ≤ 1 ∧ 1 ≤ 15) ∧ (1 ≤ 15 ∧ 15 ≤ 15) ∧ (15 : BitVec 4) ≠ 0 := by decide

/-- The three cases of the ASL overflow (R123), the second at the largest count. -/
theorem witness_asl_overflow_cases :
    (((0x4000 : Word) <<< 1).getLsbD 15 ≠ (0x4000 : Word).getLsbD 15) ∧
    (∀ k, k ≤ 15 → (0xFFFF : Word).getLsbD (15 - k) = (0xFFFF : Word).getLsbD 15) ∧
    (((0x4000 : Word) <<< 2).getLsbD 15 = (0x4000 : Word).getLsbD 15 ∧
      ∃ k, k ≤ 2 ∧ (0x4000 : Word).getLsbD (15 - k) ≠ (0x4000 : Word).getLsbD 15) := by decide

/-- An ASL without overflow, by the largest count and by 0. -/
theorem witness_asl_exact :
    shift .asl 0xFFFF 15 false = some ⟨0x8000, some true, .bit false⟩ ∧
    shift .asl 0x4000 0 true = some ⟨0x4000, none, .bit false⟩ := by decide

/-- Register values on both sides of the limit of R107. -/
theorem witness_count_register_values :
    (15 : Word).toNat ≤ 15 ∧ 16 ≤ (16 : Word).toNat ∧ 16 ≤ (0xFFFF : Word).toNat := by decide

/-- Register numbers of reset are injective. -/
theorem witness_reg_index : State.reset.params.regIndexInjective = true ∧ ShiftType.lsl ≠ .noShift := by decide

/-- A state whose r4 holds 16. -/
theorem witness_count_out_of_range :
    let s := mk 0 0 0 16 0 clear
    s.params.countFromReg = .fault ∧ regOfNumber s.params.regIndex 3 = some .r4 ∧ 16 ≤ (s.getReg .r4).toNat ∧
      ShiftType.rtr ≠ .noShift ∧ ShiftType.rtr ≠ .reserved ∧ ShiftType.reserved ≠ .noShift := by decide

/-- The shifter delivers: no shift, a literal count, a register count of 15. -/
theorem witness_shifted :
    Shifted State.reset .r1 none' ⟨0, none, .unspec⟩ ∧
    Shifted (mk 0x8001 0 0 0 0 clear) .r1 (lit .lsl 1) ⟨2, some true, .unspec⟩ ∧
    Shifted (mk 0 1 0 15 0 clear) .r2 (byReg .lsl .r4) ⟨0x8000, some false, .unspec⟩ :=
  ⟨⟨0, .inl ⟨rfl, rfl⟩, by decide⟩, ⟨1, .inr (.inl ⟨by decide, rfl, rfl⟩), by decide⟩,
    ⟨15, .inr (.inr ⟨by decide, rfl, .r4, by decide, .inl (by decide)⟩), by decide⟩⟩

/-- The shifter delivers for every shift type of the rows, with a literal and with a register count. -/
theorem witness_shifted_rows (st : ShiftType) (h : st ≠ .reserved) :
    (∃ r, Shifted (mk 0x8001 0 0 3 0 clear) .r1 ⟨st, .literal, 3⟩ r) ∧
    (∃ r, Shifted (mk 0x8001 0 0 3 0 clear) .r1 ⟨st, .register, 3⟩ r) := by
  have hr : regOfNumber State.reset.params.regIndex 3 = some .r4 := by decide
  cases st
  case reserved => exact absurd rfl h
  case noShift => exact ⟨⟨_, 0, .inl ⟨rfl, rfl⟩, rfl⟩, ⟨_, 0, .inl ⟨rfl, rfl⟩, rfl⟩⟩
  all_goals
    exact ⟨⟨_, 3, .inr (.inl ⟨by decide, rfl, rfl⟩), rfl⟩,
      ⟨_, 3, .inr (.inr ⟨by decide, rfl, .r4, hr, .inl (by decide)⟩), rfl⟩⟩

/-- The cases of `ShiftFlagsUnderS`: a carry-out and none; a bit, undefined and undetermined overflow. -/
theorem witness_shift_flag_cases :
    Shifted (mk 0x4000 0 0 0 0 clear) .r1 (lit .asl 1) ⟨0x8000, some false, .bit true⟩ ∧
    Shifted (mk 0x4000 0 0 0 0 clear) .r1 (lit .asl 2) ⟨0, some true, .any⟩ ∧
    Shifted (mk 0x4000 0 0 0 0 clear) .r1 (lit .lsr 0) ⟨0x4000, none, .unspec⟩ :=
  ⟨⟨1, .inr (.inl ⟨by decide, rfl, rfl⟩), by decide⟩, ⟨2, .inr (.inl ⟨by decide, rfl, rfl⟩), by decide⟩,
    ⟨0, .inr (.inl ⟨by decide, rfl, rfl⟩), by decide⟩⟩

/-- Both faults of the shift stage. -/
theorem witness_shift_faults :
    ShiftFaults State.reset (lit .reserved 1) .reservedShiftType ∧
    ShiftFaults (mk 0 0 0 16 0 clear) (byReg .lsl .r4) (.shiftCountOutOfRange 16) :=
  ⟨.inl ⟨rfl, rfl⟩, .inr ⟨by decide, by decide, rfl, rfl, .r4, by decide, by decide, rfl⟩⟩

/-- The default `AluCV(ADD)`, with a shifter result. -/
theorem witness_add_carry :
    State.reset.params.aluCV.add = some .standardAdd ∧ Shifted State.reset .r1 none' ⟨0, none, .unspec⟩ :=
  ⟨rfl, 0, .inl ⟨rfl, rfl⟩, by decide⟩

/-- One carrier under two overrides gives two next states. -/
theorem witness_two_overrides :
    (exec (Carrier.instr .n none' (.addi .r1 1)) State.reset =
      .next { State.reset with regs := ⟨1, 0, 0, 0, 0, 0, 0⟩, pc := 1 }) ∧
    ∃ t, exec (Carrier.instr .a none' (.addi .r1 1)) State.reset = .next t := ⟨rfl, _, rfl⟩

/-- A register that is its own count. -/
theorem witness_own_count :
    State.reset.params.regIndexInjective = true ∧ ((mk 0 0 15 0 0 clear).getReg .r3).toNat ≤ 15 := by decide

theorem witness_two_registers : Reg.r1 ≠ Reg.r2 := by decide

/-- Both settings of `loadFlags`, and the three LOAD forms. -/
theorem witness_load_flags :
    State.reset.params.loadFlags = .drawn ∧
    ({ State.reset with params := { Params.initial with loadFlags := .kept } } : State).params.loadFlags = .kept ∧
    ((fun m => Instr.loadReg m .r1 .r2) = fun m => .loadReg m .r1 .r2) := ⟨rfl, rfl, rfl⟩

/-- The test of `>=` supplied, and neither part of it supplied. -/
theorem witness_cond_ge :
    (∃ r, withGe.condGE = some 0x9999 ∧ withGe.aluCV.cmp = some r) ∧
    State.reset.params.condGE = none ∧ State.reset.params.aluCV.cmp = none := ⟨⟨_, rfl, rfl⟩, rfl, rfl⟩

/-- A condition that holds and one that fails, in one state. -/
theorem witness_conditions : State.reset.condHolds .ne = some true ∧ State.reset.condHolds .eq = some false := by decide

/-- A program whose statement is a conditional add. -/
theorem witness_condition_on_non_branch :
    let s : State := { State.reset with prog := [.addi .eq .a .r1 1 none'] }
    Cond.eq ≠ .always ∧ s.prog[s.pc]? = some (carrierUnder .eq .a none' (.addi .r1 1)) := by decide

/-- A next state, with a register that is not the destination, `[N]`, and no indirect LOAD. -/
theorem witness_frame :
    (∃ t, exec (.addi .always .n .r1 1 none') State.reset = .next t) ∧
    instrDest (.addi .always .n .r1 1 none') ≠ some .r2 ∧ keepsFlags (.addi .always .n .r1 1 none') = true ∧
    ∀ m rd off, Instr.addi .always .n .r1 1 none' ≠ .loadInd m rd off :=
  ⟨⟨_, rfl⟩, by decide, by decide, fun _ _ _ => Instr.noConfusion⟩

/-- A memory of canonical form and two cells apart. -/
theorem witness_memory :
    Memory.wf [(0x100, 0xBEEF), (0x101, 4)] = true ∧ 0x101 % 2 ^ 24 ≠ 0x100 % 2 ^ 24 := by decide

/-- A program of three statements, checked under the parameters of reset. -/
def prog3 : List Instr := [.loadInd .n .r4 0, .soRegister (.addr .r1 .r2 .r4) .s .lsl 0, .bran .ne 3]

/-- A machine with that program and one listed cell. -/
def machine3 : State := { State.reset with prog := prog3, mem := [(0x100, 0xBEEF)], a := 0x100 }

/-- The invariant holds in it. -/
theorem machine3_inv : machine3.Inv :=
  ⟨by decide, by decide, by decide, by decide, by decide, by decide, by decide⟩

/-- The premises of the statements about steps: the invariant, a statement at `pc`, and a step to a next state. -/
theorem witness_step :
    machine3.Inv ∧ machine3.pc < machine3.prog.length ∧ machine3.prog[machine3.pc]? = some (.loadInd .n .r4 0) ∧
    (Instr.loadInd .n .r4 0).illFormed? machine3.params = none ∧ ∃ t, step machine3 = .next t :=
  ⟨machine3_inv, by decide, by decide, by decide, _, rfl⟩

/-- The premises of `CheckedProgramDoesNotStopEarly`: the same machine with the count clamped. -/
theorem witness_runs_to_end :
    let s := { machine3 with params := { Params.initial with countFromReg := .clamp } }
    s.Inv ∧ s.pc < s.prog.length ∧ s.params.countFromReg ≠ .fault ∧
      ∀ i ∈ s.prog, ∀ sh, shiftOfInstr i = some sh → sh.st ≠ .reserved :=
  ⟨⟨by decide, by decide, by decide, by decide, by decide, by decide, by decide⟩, by decide, by decide, by
    intro i hi sh h
    simp only [machine3, prog3, List.mem_cons, List.not_mem_nil, or_false] at hi
    rcases hi with rfl | rfl | rfl <;> simp [shiftOfInstr] at h
    subst h
    decide⟩

/-- An image of one word, loaded, with its instruction admitted. -/
theorem witness_load_image :
    (∃ t, State.reset.loadImage defaultLayout [0x00008450] = .ok t ∧
      (Instr.addi .always .s .r1 2 (lit .lsl 1)).illFormed? t.params = none) ∧
    decode defaultLayout 0x00008450 = .ok (.addi .always .s .r1 2 (lit .lsl 1)) := ⟨⟨_, rfl, by decide⟩, by decide⟩

/-- The end of a run, and beyond. -/
theorem witness_run_end :
    State.reset.pc = State.reset.prog.length ∧
    ({ State.reset with pc := 1 } : State).prog.length < ({ State.reset with pc := 1 } : State).pc := by decide

/-- A valid layout, and instructions that fit it at the ends of their fields. -/
theorem witness_layout :
    defaultLayout.valid = true ∧ defaultLayout.wholeBytes = true ∧ defaultLayout.fits (.addi .always .a .r7 255 (lit .rtr 15)) = true ∧
    defaultLayout.fits (.loadInd .n .r4 65535) = true ∧ defaultLayout.fits (.bran .ge 65535) = true ∧
    defaultLayout.fits (.shft .r1 (lit .asl 3)) = true := by decide

/-- Operand lists, modifiers, registers and numbers of the assembler statements. -/
theorem witness_assembler :
    (AsmOperand.shiftLit ['L', 'S', 'L'] 1).isShift = true ∧ shiftOfOperand Params.initial.regIndex
      (.shiftLit ['L', 'S', 'L'] 1) = .ok (lit .lsl 1) ∧
    asm "BRAN|>= L" = .ok (.bran .ge 7) ∧ asm "ADDI r1, #2, LSL #1" = .ok (.addi .always .a .r1 2 (lit .lsl 1)) ∧
    overrideOfModifier (some ['N']) = .ok .n ∧ regOfName ['r', '7'] = .ok .r7 ∧ 127 < 128 ∧
    asm "LOAD[N] r1, r2, LSL #1" = .error .shiftNotShown ∧ asm "BRAN|== L, LSL #1" = .error .shiftNotShown := by decide

/-- A statement for each clause of `StepRefusesWhatTheCheckRefuses`, at the edge of its range where it has one. -/
theorem witness_check_refuses :
    (Instr.addi .always .a .r1 128 none').illFormed? State.reset.params = some .immediateOutOfRange ∧
    carrierImm (.addi .r1 128) = some 128 ∧ 127 < (128 : Word).toNat ∧ carrierImm (.addr .r1 .r2 .r3) = none ∧
    regOfNumber State.reset.params.regIndex 7 = none ∧ regOfNumber State.reset.params.regIndex 6 = some .r7 ∧
    (1 : Nat) ≠ 0 := by decide

/-- `CMPR` and `ADDR` with one register as both sources, one of them not its destination. -/
theorem witness_second_use :
    carrierSecondReg (.addr .r1 .r2 .r2) = some (carrierFirst (.addr .r1 .r2 .r2)) ∧
    carrierDest (.addr .r1 .r2 .r2) ≠ some (carrierFirst (.addr .r1 .r2 .r2)) ∧
    carrierSecondReg (.cmpr .r2 .r2) = some (carrierFirst (.cmpr .r2 .r2)) := by decide

/-- The launch premises of B3 (R242), and a state that faults although no fault is recorded when it starts (X2). -/
theorem witness_launch :
    machine3.noFault ∧ machine3.regsDefined [.addr 0x100, .gen .r4 0] ∧ machine3.carryDefined false ∧
    machine3.memDefined 0x100 0xBEEF ∧ machine3.pcAt 0 ∧
    State.noFault { mk 0 1 0 16 0 clear with prog := [.addr .always .a .r1 .r2 .r3 (byReg .lsl .r4)] } ∧
    faultOf (step { mk 0 1 0 16 0 clear with prog := [.addr .always .a .r1 .r2 .r3 (byReg .lsl .r4)] }) =
      some (.shiftCountOutOfRange 16) :=
  ⟨rfl, by simp [State.regsDefined, State.holds, machine3, State.getReg, State.reset, PerReg.get], rfl, by unfold State.memDefined; decide, rfl, rfl, by decide⟩

end Sys2Proof.Tests
end

/-! PROOF. The statements about the state: what an instruction with a next state may have changed, and from it the
frame of every instruction and the invariant; then reset, loading and the register that is its own count. -/

namespace Sys2Proof.Machine

/-! ### What every instruction leaves unchanged -/

/-- `t` is `s` gone on to the next statement, with at most the register `d` written and, if `keep` is set, no flag
(R22, R26, R47). -/
structure AdvancedFrom (d : Option Reg) (keep : Bool) (s t : State) : Prop where
  regs : ∀ x, d ≠ some x → t.getReg x = s.getReg x
  a : t.a = s.a
  sr : keep = true → t.sr = s.sr
  pc : t.pc = s.pc + 1
  mem : t.mem = s.mem
  prog : t.prog = s.prog
  params : t.params = s.params

/-- Advancing alone writes nothing. -/
theorem State.advance_advancedFrom (s : State) (d : Option Reg) (keep : Bool) : AdvancedFrom d keep s s.advance :=
  ⟨fun _ _ => rfl, rfl, fun _ => rfl, rfl, rfl, rfl, rfl⟩

/-- A flag write reads back every register as before. -/
@[simp] theorem State.getReg_writeFlags (s : State) (o : Override) (op : AluOp) (r : ShiftResult) (b : Word)
    (x : Reg) : (s.writeFlags o op r b).getReg x = s.getReg x :=
  congrArg (fun p : PerReg Word => p.get x) (s.writeFlags_frame o op r b).1

/-- A LOAD's flag write reads back every register as before. -/
@[simp] theorem State.getReg_loadFlags (s : State) (m : LoadModifier) (x : Reg) :
    (s.loadFlags m).getReg x = s.getReg x :=
  congrArg (fun p : PerReg Word => p.get x) (s.loadFlags_frame m).1

/-- The state after an ALU step that does not stop (R170). -/
theorem State.aluStep_of_shifted {s : State} {first : Reg} {sh : Shift} {r : ShiftResult} (h : Shifted s first sh r)
    (op : AluOp) (d : Option Reg) (b : Second) (o : Override) :
    s.aluStep op d first b sh o =
      .next ((s.writeDest d (alu op r.res (b.value s))).writeFlags o op r (b.value s)).advance := by
  unfold State.aluStep
  rw [(shiftStage_ok s first sh r).2 h]

/-- Write-back, flag write and advance touch nothing else (R170). -/
theorem State.writeBack_advancedFrom (s : State) (d : Option Reg) (x : Word) (o : Override) (op : AluOp)
    (r : ShiftResult) (b : Word) : AdvancedFrom d (o == .n) s ((s.writeDest d x).writeFlags o op r b).advance := by
  obtain ⟨da, dsr, dpc, dmem, dprog, dparams, -⟩ := s.writeDest_frame d x
  obtain ⟨-, fa, fpc, fmem, fprog, fparams⟩ := (s.writeDest d x).writeFlags_frame o op r b
  refine ⟨fun q hq => ?_, fa.trans da, fun hn => ?_, ?_, fmem.trans dmem, fprog.trans dprog, fparams.trans dparams⟩
  · simp [s.getReg_writeDest_other x hq]
  · obtain rfl : o = .n := by simpa using hn
    exact dsr
  · simp [fpc, dpc]

theorem State.aluStep_advancedFrom {s t : State} {op : AluOp} {d : Option Reg} {first : Reg} {b : Second} {sh : Shift}
    {o : Override} (h : s.aluStep op d first b sh o = .next t) : AdvancedFrom d (o == .n) s t := by
  rcases s.aluStep_cases op d first b sh o with ⟨e, -, he⟩ | ⟨r, -, hr⟩
  · exact absurd (he.symm.trans h) (e.raise_ne_next t)
  · obtain rfl := Host.Outcome.next.inj (hr.symm.trans h)
    exact s.writeBack_advancedFrom d _ o op r _

/-- A failed condition only advances, so a conditional instruction leaves unchanged what it does when it runs (R151). -/
theorem State.whenCond_advancedFrom {s t : State} {c : Cond} {run : Host.Outcome State Fault Refusal} {d : Option Reg}
    {keep : Bool} (h : s.whenCond c run = .next t) (hrun : run = .next t → AdvancedFrom d keep s t) :
    AdvancedFrom d keep s t := by
  rcases s.whenCond_cases c run with ⟨-, hc⟩ | ⟨-, hc⟩ | ⟨-, hc⟩
  · exact hrun (hc.symm.trans h)
  · obtain rfl := Host.Outcome.next.inj (hc.symm.trans h)
    exact s.advance_advancedFrom d keep
  · exact nomatch hc.symm.trans h

/-- The write of a LOAD, its flags and the advance touch nothing else (R200, R201, R204). -/
theorem State.load_advancedFrom (s : State) (m : LoadModifier) (rd : Reg) (x : Word) :
    AdvancedFrom (some rd) (m == .n) s ((s.setReg rd x).loadFlags m).advance := by
  obtain ⟨-, fa, fpc, fmem, fprog, fparams⟩ := (s.setReg rd x).loadFlags_frame m
  refine ⟨fun q hq => ?_, fa, fun hn => ?_, by simp [fpc], fmem, fprog, fparams⟩
  · simpa using s.getReg_setReg_other x fun e : q = rd => hq (e ▸ rfl)
  · obtain rfl : m = .n := by simpa using hn
    rfl

theorem carrierStep_advancedFrom {h : Carrier} {o : Override} {sh : Shift} {s t : State}
    (ht : carrierStep h o sh s = .next t) : AdvancedFrom (carrierDest h) (o == .n) s t := by
  cases h <;> exact State.aluStep_advancedFrom ht

/-- What a branch can do: go to its target, or go on (R206). -/
theorem execBran_cases {c : Cond} {k : Nat} {s t : State} (h : execBran c k s = .next t) :
    t = s.setPc k ∨ t = s.advance := by
  rcases s.whenCond_cases c (.next (s.setPc k)) with ⟨-, hc⟩ | ⟨-, hc⟩ | ⟨-, hc⟩
  · exact .inl (Host.Outcome.next.inj (h.symm.trans hc))
  · exact .inr (Host.Outcome.next.inj (h.symm.trans hc))
  · exact nomatch hc.symm.trans h

/-- What an instruction with a next state can do: go on, writing at most its destination and its flags; the same after
`a` has stepped on, for the indirect LOAD alone; or go to the target of a branch. -/
theorem exec_next_cases {i : Instr} {s t : State} (h : exec i s = .next t) :
    AdvancedFrom (instrDest i) (keepsFlags i) s t ∨
    (∃ m rd off, i = .loadInd m rd off ∧
      AdvancedFrom (some rd) (m == .n) (s.setA (s.a + s.params.postIncStep)) t) ∨
    (∃ c k, i = .bran c k ∧ t = s.setPc k) := by
  cases i
  case loadInd m rd off =>
    obtain rfl := Host.Outcome.next.inj h
    exact .inr (.inl ⟨m, rd, off, rfl, State.load_advancedFrom (s.setA _) m rd _⟩)
  case bran c k =>
    rcases execBran_cases h with rfl | rfl
    · exact .inr (.inr ⟨c, k, rfl, rfl⟩)
    · exact .inl (s.advance_advancedFrom _ _)
  all_goals left
  case loadReg m rd rs => exact Host.Outcome.next.inj h ▸ s.load_advancedFrom m rd _
  case loadImm m rd imm => exact Host.Outcome.next.inj h ▸ s.load_advancedFrom m rd imm
  case shft rd sh => exact State.aluStep_advancedFrom h
  case addi | addr | orri | orrr | andi | andr | xorr | cmpi | cmpr | tsar =>
    exact State.whenCond_advancedFrom h State.aluStep_advancedFrom
  case stNone | stLsl | stLsr | stAsl | stAsr | stRtl | stRtr | stReserved | soLiteral | soRegister =>
    exact carrierStep_advancedFrom h

/-- Settles O44, by the three things an instruction can do. -/
theorem onlyDestinationChanges : Obligations.OnlyDestinationChanges := by
  intro i s t h
  rcases exec_next_cases h with hf | ⟨m, rd, off, rfl, hf⟩ | ⟨c, k, rfl, rfl⟩
  · exact ⟨hf.regs, fun _ => by rw [hf.mem], hf.prog, hf.params, fun _ => hf.a, hf.sr⟩
  · exact ⟨hf.regs, fun _ => by rw [hf.mem, State.setA_mem], hf.prog, hf.params, fun hi => absurd rfl (hi m rd off),
      hf.sr⟩
  · exact ⟨fun _ _ => rfl, fun _ => rfl, rfl, rfl, fun _ => rfl, fun _ => rfl⟩

/-! ### The invariant -/

/-- Settles O48, field by field; the memory and the program of reset are empty. -/
theorem resetMeetsInvariant : Obligations.ResetMeetsInvariant where
  memWf := State.reset_mem_wf
  memBound := by simp [State.reset]
  cellBound := by simp [State.reset]
  aBound := by decide
  regIndex := by decide
  checked := rfl
  pcBound := le_rfl

/-- Going on from inside the program keeps the invariant. -/
theorem State.Inv.of_advancedFrom {d : Option Reg} {keep : Bool} {s t : State} (hs : s.Inv)
    (hpc : s.pc < s.prog.length) (h : AdvancedFrom d keep s t) : t.Inv where
  memWf := by rw [h.mem]; exact hs.memWf
  memBound := by rw [h.mem, h.params]; exact hs.memBound
  cellBound := by rw [h.mem, h.params]; exact hs.cellBound
  aBound := by rw [h.a, h.params]; exact hs.aBound
  regIndex := by rw [h.params]; exact hs.regIndex
  checked := by rw [h.params, h.prog]; exact hs.checked
  pcBound := by rw [h.pc, h.prog]; exact hpc

/-- A write to `a` is cut to an address, so it keeps the invariant (R203). -/
theorem State.Inv.setA {s : State} (hs : s.Inv) (x : Nat) : (s.setA x).Inv :=
  { hs with aBound := Nat.mod_lt _ (Nat.two_pow_pos _) }

/-- A jump inside the program or to its end keeps the invariant (R206). -/
theorem State.Inv.setPc {s : State} (hs : s.Inv) {k : Nat} (hk : k ≤ s.prog.length) : (s.setPc k).Inv :=
  { hs with pcBound := hk }

/-- A branch of a checked program goes to a statement of it or to its end (R206, R221). -/
theorem target_le_of_programChecked {p : Params} {prog : List Instr} {c : Cond} {k : Nat}
    (h : programChecked p prog = true) (hi : .bran c k ∈ prog) : k ≤ prog.length := by
  have hb := List.all_eq_true.1 h _ hi
  exact of_decide_eq_true (Bool.and_eq_true_iff.1 hb).2

/-- What a step to a next state has run: the statement at `pc`, admitted by the program check. -/
theorem step_next {s t : State} (h : step s = .next t) :
    ∃ i, s.prog[s.pc]? = some i ∧ i.illFormed? s.params = none ∧ exec i s = .next t := by
  rcases step_cases s with ⟨-, r, hr⟩ | ⟨i, why, -, -, hr⟩ | ⟨i, hi, hw, he⟩
  · exact nomatch hr.symm.trans h
  · exact nomatch hr.symm.trans h
  · exact ⟨i, hi, hw, he.symm.trans h⟩

/-- Settles O49: `a` is written through `setA` alone, memory, program and parameters not at all, and `pc` goes on from
inside the program or to a target the program check has bounded. -/
theorem stepKeepsInvariant : Obligations.StepKeepsInvariant := by
  intro s t hs h
  obtain ⟨i, hi, -, he⟩ := step_next h
  obtain ⟨hpc, -⟩ := List.getElem?_eq_some_iff.1 hi
  rcases exec_next_cases he with hf | ⟨m, rd, off, rfl, hf⟩ | ⟨c, k, rfl, rfl⟩
  · exact hs.of_advancedFrom hpc hf
  · exact (hs.setA _).of_advancedFrom hpc hf
  · exact hs.setPc (target_le_of_programChecked hs.checked (List.mem_of_getElem? hi))

/-! ### A register that is its own count -/

/-- Under injective register numbers a register is found by its number (R65, D4). -/
theorem regOfNumber_get {p : Params} (h : p.regIndexInjective = true) (r : Reg) :
    regOfNumber p.regIndex (p.regIndex.get r) = some r := by
  have hall : ∀ q : Reg, q ∈ Reg.all := fun q => by cases q <;> decide
  have hnodup : (Reg.all.map p.regIndex.get).Nodup := of_decide_eq_true h
  unfold regOfNumber
  cases hq : Reg.all.find? fun q => p.regIndex.get q == p.regIndex.get r with
  | none => simpa using List.find?_eq_none.1 hq r (hall r)
  | some q =>
    have hnum : p.regIndex.get q = p.regIndex.get r := by simpa using List.find?_some hq
    rw [List.inj_on_of_nodup_map hnodup (hall q) (hall r) hnum]

/-- LSL delivers the shifted word at every count, 0 included (R121, R128). -/
theorem shift_lsl_res (v : Word) (n : Nat) (cin : Bool) :
    ∃ r, shift .lsl v n cin = some r ∧ r.res = v <<< n := by
  by_cases hn : n = 0 <;> simp [shift, hn]

/-- A register of at most 15 is a count as it stands (R105, R107). -/
theorem countIs_register {s : State} {st : ShiftType} {rc : Reg} (hinj : s.params.regIndexInjective = true)
    (hst : st ≠ .noShift) (hle : (s.getReg rc).toNat ≤ 15) :
    CountIs s ⟨st, .register, s.params.regIndex.get rc⟩ (s.getReg rc).toNat :=
  .inr (.inr ⟨hst, rfl, rc, regOfNumber_get hinj rc, .inl ⟨hle, rfl⟩⟩)

/-- What an ALU step with a destination leaves in it (R170). -/
theorem State.getReg_writeBack (s : State) (d : Reg) (x : Word) (o : Override) (op : AluOp) (r : ShiftResult)
    (b : Word) : (((s.writeDest (some d) x).writeFlags o op r b).advance).getReg d = x := by
  simp [s.getReg_writeDest_same]

/-- Settles O33: the count and the operand are both read in the state before the write. -/
theorem destinationMayBeItsOwnCount : Obligations.DestinationMayBeItsOwnCount := by
  intro s sro rd hinj hle
  obtain ⟨r, hr, hres⟩ := shift_lsl_res (s.getReg rd) (s.getReg rd).toNat s.sr.c
  have hsh : Shifted s rd ⟨.lsl, .register, s.params.regIndex.get rd⟩ r :=
    ⟨_, countIs_register hinj (by decide) hle, hr⟩
  refine ⟨_, State.aluStep_of_shifted hsh .add (some rd) (.imm 0) sro, ?_⟩
  rw [s.getReg_writeBack]
  simp [alu, Second.value, hres, Nat.shiftLeft_eq]

/-! ### Loading and reset -/

/-- The statements of a decoded image are what the decoder reads from its words, in their order. -/
theorem getElem?_decodeImage {L : Layout} {ws : List Nat} {prog : List Instr} (h : decodeImage L ws = .ok prog)
    {k w : Nat} {i : Instr} (hw : ws[k]? = some w) (hi : decode L w = .ok i) : prog[k]? = some i := by
  induction ws generalizing prog k with
  | nil => simp at hw
  | cons v vs ih =>
    unfold decodeImage at h
    split at h
    next j js hv hvs =>
      obtain rfl := Except.ok.inj h
      cases k with
      | zero =>
        obtain rfl : v = w := by simpa using hw
        simpa using hv.symm.trans hi
      | succ k => simpa using ih hvs (by simpa using hw)
    all_goals exact nomatch h

/-- A loaded image is the program of the machine. -/
theorem State.loadImage_prog {s t : State} {L : Layout} {ws : List Nat} (h : s.loadImage L ws = .ok t) :
    decodeImage L ws = .ok t.prog := by
  unfold State.loadImage at h
  split at h
  next prog hprog =>
    obtain rfl := Except.ok.inj h
    exact hprog
  next => exact nomatch h

/-- An admitted statement at `pc` is what the step runs (R221). -/
theorem step_of_admitted {s : State} {i : Instr} (hi : s.prog[s.pc]? = some i) (hw : i.illFormed? s.params = none) :
    step s = exec i s := by
  simpa [hi, hw] using step_cases s

/-- Settles O46: the second clause is the first at `pc = k`, where the loaded program holds what word `k` decodes to. -/
theorem stepRunsDecodedInstruction : Obligations.StepRunsDecodedInstruction :=
  ⟨fun _ _ => step_of_admitted, fun _ _ _ _ _ _ _ hload hw hi hadm =>
    step_of_admitted (getElem?_decodeImage (State.loadImage_prog hload) hw hi) hadm⟩

/-- Settles O52: every value is read off the reset state. -/
theorem resetLeavesChosenValues : Obligations.ResetLeavesChosenValues :=
  ⟨fun r => by cases r <;> rfl, rfl, rfl, rfl, fun _ => rfl, rfl, rfl⟩

end Sys2Proof.Machine

/-! PROOF. The statement about memory: a read after a write through the state's own accessors, and addresses modulo
`2^AWIDTH` (20_memory.md R40, R41). -/

namespace Sys2Proof.Machine

/-- An address and that address plus `2^AWIDTH` are one cell (R41). -/
theorem State.truncAddr_add_two_pow (s : State) (addr : Nat) :
    s.truncAddr (addr + 2 ^ s.params.awidth) = s.truncAddr addr :=
  Nat.add_mod_right _ _

/-- What a read after a write gives (R41): the cut value if both addresses are one cell, else what it gave before. -/
theorem State.memRead_memWrite {s : State} (h : s.mem.wf = true) (addr x other : Nat) :
    (s.memWrite addr x).memRead other =
      if s.truncAddr other = s.truncAddr addr then x % 2 ^ s.params.memWordBits else s.memRead other :=
  Memory.read_write (s.truncAddr addr) (x % 2 ^ s.params.memWordBits) h (s.truncAddr other)

/-- Settles O45: both reads after the write are the two cases of `State.memRead_memWrite`. -/
theorem memWriteThenRead : Obligations.MemWriteThenRead := by
  intro s addr other x h
  refine ⟨?same, Memory.wf_write _ _ h, congrArg s.mem.read (s.truncAddr_add_two_pow addr), fun hne => ?other⟩
  case same => rw [State.memRead_memWrite h, if_pos rfl]
  case other => exact (State.memRead_memWrite h addr x other).trans (if_neg hne)

end Sys2Proof.Machine

/-! PROOF. The binary layer (30_encoding.md R62 to R67, R75, R76): a word holds the fields it was placed from, the
decoder reads held fields back, and an image of bytes spells its word in either byte order. -/

namespace Sys2Proof

open Laws

/-! ### Fields of a word -/

/-- The word holds the given values in the given fields. -/
def HoldsFields (w : Nat) (fs : List (BitField × Nat)) : Prop := ∀ x ∈ fs, x.1.extract w = x.2

/-- The fields lie apart inside the word, each with a value it has room for. -/
structure FieldsPlaceable (bits : Nat) (fs : List (BitField × Nat)) : Prop where
  apart : (fs.map Prod.fst).Pairwise fun f g => f.disjoint g = true
  inside : ∀ x ∈ fs, x.1.pos + x.1.width ≤ bits
  room : ∀ x ∈ fs, x.2 < 2 ^ x.1.width

theorem FieldsPlaceable.of_fieldsApart {bits : Nat} {fs : List (BitField × Nat)}
    (h : fieldsApart bits (fs.map Prod.fst) = true) (hroom : ∀ x ∈ fs, x.2 < 2 ^ x.1.width) :
    FieldsPlaceable bits fs := by
  obtain ⟨hapart, hinside⟩ := Bool.and_eq_true_iff.1 h
  exact ⟨of_decide_eq_true hapart, by simpa using hinside, hroom⟩

@[simp] theorem BitField.extract_zero (f : BitField) : f.extract 0 = 0 := by
  simp [BitField.extract]

@[simp] theorem BitField.extract_or (f : BitField) (x y : Nat) : f.extract (x ||| y) = f.extract x ||| f.extract y := by
  simp only [BitField.extract, Nat.shiftRight_or_distrib, Nat.or_mod_two_pow]

theorem BitField.extract_shiftLeft_same {f : BitField} {v : Nat} (h : v < 2 ^ f.width) :
    f.extract (v <<< f.pos) = v := by
  rw [BitField.extract, Nat.shiftLeft_shiftRight, Nat.mod_eq_of_lt h]

theorem BitField.shiftLeft_lt {f : BitField} {v n : Nat} (h : v < 2 ^ f.width) (hn : f.pos + f.width ≤ n) :
    v <<< f.pos < 2 ^ n :=
  (Nat.shiftLeft_lt h).trans_le (Nat.pow_le_pow_right two_pos (by omega))

/-- A value placed in one field is not seen in a field apart from it. -/
theorem BitField.extract_shiftLeft_apart {f g : BitField} {v : Nat} (h : v < 2 ^ f.width)
    (hd : f.disjoint g = true) : g.extract (v <<< f.pos) = 0 := by
  unfold BitField.extract
  rcases (Bool.or_eq_true_iff.1 hd).imp of_decide_eq_true of_decide_eq_true with hfg | hgf
  · rw [Nat.shiftRight_eq_zero _ _ (BitField.shiftLeft_lt h hfg), Nat.zero_mod]
  · obtain ⟨k, hk⟩ := Nat.exists_eq_add_of_le hgf
    rw [show f.pos = k + g.width + g.pos by omega, Nat.shiftLeft_add, Nat.shiftLeft_shiftRight, Nat.shiftLeft_add,
      Nat.shiftLeft_eq, Nat.mul_mod_left]

theorem BitField.disjoint_comm (f g : BitField) : f.disjoint g = g.disjoint f := Bool.or_comm _ _

/-- A field apart from every placed field reads as 0. -/
theorem BitField.extract_placeAll_apart {g : BitField} {fs : List (BitField × Nat)}
    (hroom : ∀ x ∈ fs, x.2 < 2 ^ x.1.width) (hd : ∀ x ∈ fs, x.1.disjoint g = true) : g.extract (placeAll fs) = 0 := by
  induction fs with
  | nil => exact g.extract_zero
  | cons x fs ih =>
    rw [List.forall_mem_cons] at hroom hd
    rw [placeAll, BitField.extract_or, BitField.extract_shiftLeft_apart hroom.1 hd.1, ih hroom.2 hd.2, Nat.or_zero]

/-- Fields that can be placed are read back (R62). -/
theorem FieldsPlaceable.holds {bits : Nat} {fs : List (BitField × Nat)} (h : FieldsPlaceable bits fs) :
    HoldsFields (placeAll fs) fs := by
  obtain ⟨hapart, -, hroom⟩ := h
  induction fs with
  | nil => exact fun _ hx => nomatch hx
  | cons x fs ih =>
    rw [List.map_cons, List.pairwise_cons, List.forall_mem_map] at hapart
    rw [List.forall_mem_cons] at hroom
    intro y hy
    rw [placeAll, BitField.extract_or]
    rcases List.mem_cons.1 hy with rfl | hy
    · rw [BitField.extract_shiftLeft_same hroom.1, BitField.extract_placeAll_apart hroom.2 fun z hz => by
        rw [BitField.disjoint_comm]; exact hapart.1 z hz, Nat.or_zero]
    · rw [BitField.extract_shiftLeft_apart hroom.1 (hapart.1 y hy), Nat.zero_or, ih hapart.2 hroom.2 y hy]

/-- Fields inside the word spell a word of its length. -/
theorem FieldsPlaceable.placeAll_lt {bits : Nat} {fs : List (BitField × Nat)} (h : FieldsPlaceable bits fs) :
    placeAll fs < 2 ^ bits := by
  obtain ⟨-, hinside, hroom⟩ := h
  induction fs with
  | nil => exact Nat.two_pow_pos bits
  | cons x fs ih =>
    rw [List.forall_mem_cons] at hinside hroom
    exact Nat.or_lt_two_pow (BitField.shiftLeft_lt hroom.1 hinside.1) (ih hinside.2 hroom.2)

/-! ### Valid layouts -/

/-- A code of an injective, fitting list of codes is below `2^width`. -/
theorem lt_of_codesFit {α : Type} {width : Nat} {l : List α} {f : α → Nat} (h : codesFit width (l.map f) = true) {a : α}
    (ha : a ∈ l) : f a < 2 ^ width :=
  of_decide_eq_true (List.all_eq_true.1 (Bool.and_eq_true_iff.1 h).2 _ (List.mem_map_of_mem ha))

/-- Under injective codes the first entry with a code is the one it belongs to. -/
theorem find?_code {α : Type} {width : Nat} {l : List α} {f : α → Nat} (h : codesFit width (l.map f) = true) {a : α}
    (ha : a ∈ l) : l.find? (fun b => f b == f a) = some a := by
  have hnodup : (l.map f).Nodup := of_decide_eq_true (Bool.and_eq_true_iff.1 h).1
  cases hb : l.find? fun b => f b == f a with
  | none => simpa using List.find?_eq_none.1 hb a ha
  | some b =>
    have hcode : f b = f a := by simpa using List.find?_some hb
    rw [List.inj_on_of_nodup_map hnodup (List.mem_of_find?_eq_some hb) ha hcode]

theorem OpName.mem_all (o : OpName) : o ∈ OpName.all := by cases o <;> decide
theorem Override.mem_all (o : Override) : o ∈ Override.all := by cases o <;> decide
theorem Cond.mem_all (c : Cond) : c ∈ Cond.all := by cases c <;> decide

/-- The conditions of `Layout.valid` (R62) by name. -/
structure Layout.Valid (L : Layout) : Prop where
  opCodes : codesFit L.op.width (OpName.all.map L.opcodeOf) = true
  sroCodes : codesFit L.sro.width (Override.all.map L.overrideCode) = true
  condCodes : codesFit L.cond.width (Cond.all.map L.condCode) = true
  regNumbers : (Reg.all.map L.regIndex.get).Nodup
  r1 : L.r1.width = 4
  r2 : L.r2.width = 4
  r3 : L.r3.width = 4
  rs : L.rs.width = 4
  so : L.so.width = 1
  st : L.st.width = 3
  sc : L.sc.width = 4
  imm16 : L.imm16.width = 16
  shortImmApart : fieldsApart L.bits [L.op, L.r1, L.imm, L.so, L.st, L.sc, L.sro, L.cond] = true
  registerApart : fieldsApart L.bits [L.op, L.r1, L.r2, L.r3, L.so, L.st, L.sc, L.sro, L.cond] = true
  loadRegApart : fieldsApart L.bits [L.op, L.r1, L.rs, L.sro] = true
  loadImmApart : fieldsApart L.bits [L.op, L.r1, L.imm16, L.sro] = true
  loadIndApart : fieldsApart L.bits [L.op, L.r1, L.off, L.sro] = true
  branApart : fieldsApart L.bits [L.op, L.cond, L.target] = true

theorem Layout.Valid.of_valid {L : Layout} (h : L.valid = true) : L.Valid := by
  simp only [Layout.valid, Bool.and_eq_true, decide_eq_true_eq, and_assoc] at h
  obtain ⟨opCodes, sroCodes, condCodes, regNumbers, r1, r2, r3, rs, so, st, sc, imm16, shortImm, register, loadReg,
    loadImm, loadInd, bran⟩ := h
  exact ⟨opCodes, sroCodes, condCodes, regNumbers, r1, r2, r3, rs, so, st, sc, imm16, shortImm, register, loadReg,
    loadImm, loadInd, bran⟩

section Valid

variable {L : Layout} (hv : L.Valid)
include hv

theorem Layout.Valid.opcodeOf_lt (o : OpName) : L.opcodeOf o < 2 ^ L.op.width := lt_of_codesFit hv.opCodes o.mem_all

theorem Layout.Valid.overrideCode_lt (o : Override) : L.overrideCode o < 2 ^ L.sro.width :=
  lt_of_codesFit hv.sroCodes o.mem_all

theorem Layout.Valid.condCode_lt (c : Cond) : L.condCode c < 2 ^ L.cond.width := lt_of_codesFit hv.condCodes c.mem_all

end Valid

theorem Layout.loadCode_eq (L : Layout) (m : LoadModifier) : ∃ o, L.loadCode m = L.overrideCode o := by
  cases m <;> exact ⟨_, rfl⟩

theorem Layout.regCode_lt {L : Layout} {f : BitField} (hf : f.width = 4) (r : Reg) : L.regCode r < 2 ^ f.width := by
  rw [hf]; exact (L.regIndex.get r).isLt

/-! ### Codes the source fixes -/

/-- Every shift type is read back from its code (R63). -/
@[simp] theorem ShiftType.ofCode_code (st : ShiftType) : ShiftType.ofCode st.code = st := by cases st <;> rfl

/-- Every count mode is read back from its code (R64). -/
@[simp] theorem CountMode.ofCode_code (so : CountMode) : CountMode.ofCode so.code = so := by cases so <;> rfl


/-! ### What the encoder places -/

section Placeable

variable {L : Layout} (hv : L.Valid)
include hv

/-- The codes of the shift fields have room in them (R62 to R65). -/
theorem Layout.Valid.shiftFields_room (sh : Shift) : ∀ x ∈ L.shiftFields sh, x.2 < 2 ^ x.1.width := by
  obtain ⟨st, so, sc⟩ := sh
  have hso : so.code < 2 ^ L.so.width := by rw [hv.so]; cases so <;> decide
  have hst : st.code < 2 ^ L.st.width := by rw [hv.st]; cases st <;> decide
  have hsc : sc.toNat < 2 ^ L.sc.width := by rw [hv.sc]; exact sc.isLt
  simp [Layout.shiftFields, hso, hst, hsc]

/-- The fields of a Short Immediate instruction can be placed (R62). -/
theorem Layout.Valid.shortImm_placeable (o : OpName) (c : Cond) (sro : Override) (rd : Reg) (imm : Word) (sh : Shift) :
    FieldsPlaceable L.bits (L.shortImm o c sro rd imm sh) := by
  refine .of_fieldsApart hv.shortImmApart ?_
  simpa [Layout.shortImm, or_imp, forall_and, hv.opcodeOf_lt, hv.overrideCode_lt, hv.condCode_lt,
    Layout.regCode_lt hv.r1, Nat.mod_lt] using hv.shiftFields_room sh

/-- The fields of a Register instruction can be placed (R62). -/
theorem Layout.Valid.register_placeable (o : OpName) (c : Cond) (sro : Override) (rd ra rb : Reg) (sh : Shift) :
    FieldsPlaceable L.bits (L.register o c sro rd ra rb sh) := by
  refine .of_fieldsApart hv.registerApart ?_
  simpa [Layout.register, or_imp, forall_and, hv.opcodeOf_lt, hv.overrideCode_lt, hv.condCode_lt,
    Layout.regCode_lt hv.r1, Layout.regCode_lt hv.r2, Layout.regCode_lt hv.r3] using hv.shiftFields_room sh

/-- The fields of a LOAD can be placed, whatever field its operand has. -/
theorem Layout.Valid.load_placeable {o : OpName} {m : LoadModifier} {rd : Reg} {f : BitField} {v : Nat}
    (hapart : fieldsApart L.bits [L.op, L.r1, f, L.sro] = true) (hroom : v < 2 ^ f.width) :
    FieldsPlaceable L.bits [(L.op, L.opcodeOf o), (L.r1, L.regCode rd), (f, v), (L.sro, L.loadCode m)] := by
  refine .of_fieldsApart hapart ?_
  obtain ⟨sro, hm⟩ := L.loadCode_eq m
  simp [hm, hv.opcodeOf_lt, hv.overrideCode_lt, Layout.regCode_lt hv.r1, hroom]

/-- The fields of a BRAN can be placed (R206). -/
theorem Layout.Valid.bran_placeable {o : OpName} {c : Cond} {t : Nat} (hroom : t < 2 ^ L.target.width) :
    FieldsPlaceable L.bits [(L.op, L.opcodeOf o), (L.cond, L.condCode c), (L.target, t)] := by
  refine .of_fieldsApart hv.branApart ?_
  simp [hv.opcodeOf_lt, hv.condCode_lt, hroom]

/-! ### What the decoder reads -/

/-- A register field that holds a register's number is read as that register (R20, D4). -/
theorem Layout.Valid.getReg_eq {w : Nat} {f : BitField} {r : Reg} (h : f.extract w = L.regCode r) :
    L.getReg f w = .ok r := by
  have hnum : regOfNumber L.regIndex (BitVec.ofNat 4 (L.regCode r)) = some r := by
    simpa [Layout.regCode] using
      Machine.regOfNumber_get (p := { Params.initial with regIndex := L.regIndex }) (decide_eq_true hv.regNumbers) r
  simp [Layout.getReg, h, hnum]

/-- An override field that holds an override's code is read as that override (D16). -/
theorem Layout.Valid.getOverride_eq {w : Nat} {o : Override} (h : L.sro.extract w = L.overrideCode o) :
    L.getOverride w = .ok o := by
  simp [Layout.getOverride, h, find?_code hv.sroCodes o.mem_all]

/-- A condition field that holds a condition's code is read as that condition (D17). -/
theorem Layout.Valid.getCond_eq {w : Nat} {c : Cond} (h : L.cond.extract w = L.condCode c) : L.getCond w = .ok c := by
  simp [Layout.getCond, h, find?_code hv.condCodes c.mem_all]

theorem Layout.Valid.getLoadModifier_eq {w : Nat} {m : LoadModifier} (h : L.sro.extract w = L.loadCode m) :
    L.getLoadModifier w = .ok m := by
  cases m <;> simp [Layout.getLoadModifier, hv.getOverride_eq h]

theorem Layout.Valid.find?_opcode {w : Nat} {o : OpName} (h : L.op.extract w = L.opcodeOf o) :
    OpName.all.find? (fun p => L.opcodeOf p == L.op.extract w) = some o := by
  rw [h]; exact find?_code hv.opCodes o.mem_all

end Placeable

theorem Layout.getShift_eq {L : Layout} {w : Nat} {sh : Shift} (h : HoldsFields w (L.shiftFields sh)) :
    L.getShift w = sh := by
  obtain ⟨hso, hst, hsc⟩ : L.so.extract w = sh.so.code ∧ L.st.extract w = sh.st.code ∧
    L.sc.extract w = sh.sc.toNat := by simpa [HoldsFields, Layout.shiftFields] using h
  simp [Layout.getShift, hso, hst, hsc]

/-- What a word that holds the fields of the Short Immediate format holds in each. -/
theorem HoldsFields.shortImm {L : Layout} {w : Nat} {o : OpName} {c : Cond} {sro : Override} {rd : Reg} {imm : Word}
    {sh : Shift} (h : HoldsFields w (L.shortImm o c sro rd imm sh)) :
    L.op.extract w = L.opcodeOf o ∧ L.r1.extract w = L.regCode rd ∧
      L.imm.extract w = imm.toNat % 2 ^ L.imm.width ∧ HoldsFields w (L.shiftFields sh) ∧
      L.sro.extract w = L.overrideCode sro ∧ L.cond.extract w = L.condCode c := by
  simpa [HoldsFields, Layout.shortImm, or_imp, forall_and, and_assoc] using h

/-- What a word that holds the fields of the Register format holds in each. -/
theorem HoldsFields.register {L : Layout} {w : Nat} {o : OpName} {c : Cond} {sro : Override} {rd ra rb : Reg}
    {sh : Shift} (h : HoldsFields w (L.register o c sro rd ra rb sh)) :
    L.op.extract w = L.opcodeOf o ∧ L.r1.extract w = L.regCode rd ∧ L.r2.extract w = L.regCode ra ∧
      L.r3.extract w = L.regCode rb ∧ HoldsFields w (L.shiftFields sh) ∧
      L.sro.extract w = L.overrideCode sro ∧ L.cond.extract w = L.condCode c := by
  simpa [HoldsFields, Layout.register, or_imp, forall_and, and_assoc] using h

/-- The fields of a conditional Short Immediate or Register instruction can be placed (R100). -/
theorem Layout.Valid.carrierUnder_placeable {L : Layout} (hv : L.Valid) (c : Cond) (sro : Override) (sh : Shift)
    (h : Carrier) : FieldsPlaceable L.bits (L.fieldsOf (Machine.carrierUnder c sro sh h)) := by
  cases h
  case addi | orri | andi | cmpi => exact hv.shortImm_placeable ..
  case addr | orrr | andr | xorr | cmpr | tsar => exact hv.register_placeable ..

section Formats

variable {L : Layout} (hv : L.Valid) {w : Nat} {o : OpName} {c : Cond} {sro : Override} {sh : Shift}
include hv

/-- A Short Immediate word is read back if its immediate fits (R66). -/
theorem Layout.Valid.parseShortImm_eq {rd : Reg} {imm : Word} (hfits : L.immFits imm = true)
    (h : HoldsFields w (L.shortImm o c sro rd imm sh)) (mk : Cond → Override → Reg → Word → Shift → Instr) :
    L.parseShortImm mk w = .ok (mk c sro rd imm sh) := by
  obtain ⟨-, hrd, himm, hsh, hsro, hc⟩ := h.shortImm
  have hext : L.extendImm (imm.toNat % 2 ^ L.imm.width) = imm := by simpa [Layout.immFits] using hfits
  rw [Layout.parseShortImm, hv.getCond_eq hc, hv.getOverride_eq hsro, hv.getReg_eq hrd, himm, hext,
    Layout.getShift_eq hsh]
  rfl

/-- A Register word is read back. -/
theorem Layout.Valid.parseRegister_eq {rd ra rb : Reg} (h : HoldsFields w (L.register o c sro rd ra rb sh))
    (mk : Cond → Override → Reg → Reg → Reg → Shift → Instr) :
    L.parseRegister mk w = .ok (mk c sro rd ra rb sh) := by
  obtain ⟨-, hrd, hra, hrb, hsh, hsro, hc⟩ := h.register
  rw [Layout.parseRegister, hv.getCond_eq hc, hv.getOverride_eq hsro, hv.getReg_eq hrd, hv.getReg_eq hra,
    hv.getReg_eq hrb, Layout.getShift_eq hsh]
  rfl

/-- A compare or test whose R1 repeats its R2 is read back (R179, R180). -/
theorem Layout.Valid.parseCompare_eq {ra rb : Reg} (h : HoldsFields w (L.register o c sro ra ra rb sh))
    (mk : Cond → Override → Reg → Reg → Shift → Instr) :
    L.parseCompare mk w = .ok (mk c sro ra rb sh) := by
  obtain ⟨-, hrd, hra, hrb, hsh, hsro, hc⟩ := h.register
  rw [Layout.parseCompare, hv.getCond_eq hc, hv.getOverride_eq hsro, hv.getReg_eq hrd, hv.getReg_eq hra,
    hv.getReg_eq hrb, Layout.getShift_eq hsh]
  exact if_pos rfl

/-- A Short Immediate or Register word is read back by its opcode (R76). -/
theorem Layout.Valid.parse_carrierUnder {h : Carrier} (hfits : L.carrierFits h = true)
    (hw : HoldsFields w (L.fieldsOf (Machine.carrierUnder c sro sh h))) :
    L.parse w = .ok (Machine.carrierUnder c sro sh h) := by
  cases h
  case addi | orri | andi | cmpi =>
    rw [Layout.parse, hv.find?_opcode (HoldsFields.shortImm hw).1]
    exact hv.parseShortImm_eq hfits hw _
  case addr | orrr | andr | xorr =>
    rw [Layout.parse, hv.find?_opcode (HoldsFields.register hw).1]
    exact hv.parseRegister_eq hw _
  case cmpr | tsar =>
    rw [Layout.parse, hv.find?_opcode (HoldsFields.register hw).1]
    exact hv.parseCompare_eq hw _

end Formats

/-! ### The round trip -/

/-- The instructions that have a word of their own: those of group c of the opcode table (R76). -/
inductive CoreInstr : Instr → Prop
  | carrier (c : Cond) (sro : Override) (sh : Shift) (h : Carrier) : CoreInstr (Machine.carrierUnder c sro sh h)
  | loadReg (m : LoadModifier) (rd rs : Reg) : CoreInstr (.loadReg m rd rs)
  | loadImm (m : LoadModifier) (rd : Reg) (imm : Word) : CoreInstr (.loadImm m rd imm)
  | loadInd (m : LoadModifier) (rd : Reg) (off : Nat) : CoreInstr (.loadInd m rd off)
  | bran (c : Cond) (t : Nat) : CoreInstr (.bran c t)

theorem Carrier.instr_eq_carrierUnder (h : Carrier) (o : Override) (sh : Shift) :
    h.instr o sh = Machine.carrierUnder .always o sh h := by
  cases h <;> rfl

theorem CoreInstr.instr (h : Carrier) (o : Override) (sh : Shift) : CoreInstr (h.instr o sh) :=
  h.instr_eq_carrierUnder o sh ▸ .carrier .always o sh h

/-- Every instruction shares its words with one that has a word of its own (R75, R76). -/
theorem Instr.coreInstr_core : (i : Instr) → CoreInstr i.core
  | .addi c o rd imm sh => .carrier c o sh (.addi rd imm)
  | .addr c o rd ra rb sh => .carrier c o sh (.addr rd ra rb)
  | .orri c o rd imm sh => .carrier c o sh (.orri rd imm)
  | .orrr c o rd ra rb sh => .carrier c o sh (.orrr rd ra rb)
  | .andi c o rd imm sh => .carrier c o sh (.andi rd imm)
  | .andr c o rd ra rb sh => .carrier c o sh (.andr rd ra rb)
  | .xorr c o rd ra rb sh => .carrier c o sh (.xorr rd ra rb)
  | .cmpi c o rd imm sh => .carrier c o sh (.cmpi rd imm)
  | .cmpr c o ra rb sh => .carrier c o sh (.cmpr ra rb)
  | .tsar c o ra rb sh => .carrier c o sh (.tsar ra rb)
  | .loadReg .. => .loadReg ..
  | .loadImm .. => .loadImm ..
  | .loadInd .. => .loadInd ..
  | .bran .. => .bran ..
  | .shft rd sh => .carrier .always .s sh (.orri rd 0)
  | .stNone .. | .stLsl .. | .stLsr .. | .stAsl .. | .stAsr .. | .stRtl .. | .stRtr .. | .stReserved ..
  | .soLiteral .. | .soRegister .. => .instr ..

/-- The family CoreForm holds of every instruction. -/
theorem coreForm : (i : Instr) → CoreForm.Statement i
  | .addi .. => CoreForm.addi ..
  | .addr .. => CoreForm.addr ..
  | .orri .. => CoreForm.orri ..
  | .orrr .. => CoreForm.orrr ..
  | .andi .. => CoreForm.andi ..
  | .andr .. => CoreForm.andr ..
  | .xorr .. => CoreForm.xorr ..
  | .cmpi .. => CoreForm.cmpi ..
  | .cmpr .. => CoreForm.cmpr ..
  | .tsar .. => CoreForm.tsar ..
  | .loadReg .. => CoreForm.loadReg ..
  | .loadImm .. => CoreForm.loadImm ..
  | .loadInd .. => CoreForm.loadInd ..
  | .bran .. => CoreForm.bran ..
  | .shft .. => CoreForm.shft ..
  | .stNone .. => CoreForm.stNone ..
  | .stLsl .. => CoreForm.stLsl ..
  | .stLsr .. => CoreForm.stLsr ..
  | .stAsl .. => CoreForm.stAsl ..
  | .stAsr .. => CoreForm.stAsr ..
  | .stRtl .. => CoreForm.stRtl ..
  | .stRtr .. => CoreForm.stRtr ..
  | .stReserved .. => CoreForm.stReserved ..
  | .soLiteral .. => CoreForm.soLiteral ..
  | .soRegister .. => CoreForm.soRegister ..

section RoundTrip

variable {L : Layout} (hv : L.Valid) {i : Instr}
include hv

/-- The fields of an instruction whose literals fit can be placed. -/
theorem Layout.Valid.fieldsOf_placeable (hi : CoreInstr i) (hfits : L.fits i = true) :
    FieldsPlaceable L.bits (L.fieldsOf i) := by
  cases hi with
  | carrier c sro sh h => exact hv.carrierUnder_placeable c sro sh h
  | loadReg m rd rs => exact hv.load_placeable hv.loadRegApart (Layout.regCode_lt hv.rs rs)
  | loadImm m rd imm => exact hv.load_placeable hv.loadImmApart (by rw [hv.imm16]; exact imm.isLt)
  | loadInd m rd off => exact hv.load_placeable hv.loadIndApart (of_decide_eq_true hfits)
  | bran c t => exact hv.bran_placeable (of_decide_eq_true hfits)

/-- What the decoder reads from a word that holds the fields of a LOAD before its operand. -/
theorem Layout.Valid.load_reads {w : Nat} {o : OpName} {m : LoadModifier} {rd : Reg} {f : BitField} {v : Nat}
    (hw : HoldsFields w [(L.op, L.opcodeOf o), (L.r1, L.regCode rd), (f, v), (L.sro, L.loadCode m)]) :
    OpName.all.find? (fun p => L.opcodeOf p == L.op.extract w) = some o ∧ L.getLoadModifier w = .ok m ∧
      L.getReg L.r1 w = .ok rd ∧ f.extract w = v := by
  obtain ⟨hop, hrd, hf, hm⟩ : L.op.extract w = L.opcodeOf o ∧ L.r1.extract w = L.regCode rd ∧ f.extract w = v ∧
    L.sro.extract w = L.loadCode m := by simpa [HoldsFields] using hw
  exact ⟨hv.find?_opcode hop, hv.getLoadModifier_eq hm, hv.getReg_eq hrd, hf⟩

/-- A word that holds an instruction's fields is read as that instruction. -/
theorem Layout.Valid.parse_eq {w : Nat} (hi : CoreInstr i) (hfits : L.fits i = true)
    (hw : HoldsFields w (L.fieldsOf i)) : L.parse w = .ok i := by
  cases hi with
  | carrier c sro sh h => exact hv.parse_carrierUnder (by cases h <;> exact hfits) hw
  | loadReg m rd rs =>
    obtain ⟨hop, hm, hrd, hrs⟩ := hv.load_reads hw
    rw [Layout.parse, hop, hm, hrd, hv.getReg_eq hrs]
    rfl
  | loadImm m rd imm =>
    obtain ⟨hop, hm, hrd, himm⟩ := hv.load_reads hw
    rw [Layout.parse, hop, hm, hrd, himm, BitVec.ofNat_toNat, BitVec.setWidth_eq]
    rfl
  | loadInd m rd off =>
    obtain ⟨hop, hm, hrd, hoff⟩ := hv.load_reads hw
    rw [Layout.parse, hop, hm, hrd, hoff]
    rfl
  | bran c t =>
    obtain ⟨hop, hc, ht⟩ : L.op.extract w = L.opcodeOf .bran ∧ L.cond.extract w = L.condCode c ∧
      L.target.extract w = t := by simpa [HoldsFields, Layout.fieldsOf] using hw
    rw [Layout.parse, hv.find?_opcode hop, hv.getCond_eq hc, ht]
    rfl

/-- The round trip of an instruction that has a word of its own. -/
theorem Layout.Valid.decode_encode (hi : CoreInstr i) (hfits : L.fits i = true) : decode L (encode L i) = .ok i := by
  have hplace := hv.fieldsOf_placeable hi hfits
  have hlt : ¬ 2 ^ L.bits ≤ encode L i := Nat.not_le.2 hplace.placeAll_lt
  have hparse : L.parse (encode L i) = .ok i := hv.parse_eq hi hfits hplace.holds
  simp [decode, hlt, hparse]

end RoundTrip

/-- Settles O53: an instruction has the word of its core instruction, and a core instruction's fields are placed apart
and read back. -/
theorem decodeReadsEncoded : Obligations.DecodeReadsEncoded := by
  intro L i hv hfits
  obtain ⟨-, hword, -, -, hcore⟩ := coreForm i
  rw [hword L]
  exact (Layout.Valid.of_valid hv).decode_encode i.coreInstr_core (hcore L hfits)

/-- Settles O54: the decoder answers with an instruction only after it has compared the word with its encoding. -/
theorem decodedWordIsEncoding : Obligations.DecodedWordIsEncoding := by
  intro L w i h
  unfold decode at h
  split_ifs at h with hlong
  split at h
  next => exact nomatch h
  next j hj =>
    split_ifs at h with henc
    obtain rfl := Except.ok.inj h
    exact ⟨henc, Nat.not_le.1 hlong⟩

/-- Settles O56: the codes are read back from the tables of R63 and R64; the five words are decoded by evaluation. -/
theorem fieldCodesAndDefaultWords : Obligations.FieldCodesAndDefaultWords :=
  ⟨rfl, ShiftType.ofCode_code, CountMode.ofCode_code, rfl, rfl, by decide⟩

/-! ### Images of bytes -/

@[simp] theorem length_natToLittle (k w : Nat) : (natToLittle k w).length = k := by
  induction k generalizing w with
  | zero => rfl
  | succ k ih => exact congrArg Nat.succ (ih (w / 256))

/-- The `k` low bytes of a number below `256^k` spell it. -/
theorem littleToNat_natToLittle {k w : Nat} (h : w < 256 ^ k) : littleToNat (natToLittle k w) = w := by
  induction k generalizing w with
  | zero => exact (Nat.lt_one_iff.1 h).symm
  | succ k ih =>
    have hdiv : w / 256 < 256 ^ k := Nat.div_lt_of_lt_mul (by rwa [Nat.pow_succ, Nat.mul_comm] at h)
    rw [natToLittle, littleToNat, ih hdiv, BitVec.toNat_ofNat]
    exact Nat.mod_add_div w 256

@[simp] theorem Layout.length_bytesOfWord (L : Layout) (w : Nat) : (L.bytesOfWord w).length = L.bits / 8 := by
  unfold Layout.bytesOfWord
  cases L.byteOrder <;> simp

/-- The bytes of a word of whole bytes spell it in either byte order (R42). -/
theorem Layout.wordOfBytes_bytesOfWord {L : Layout} {w : Nat} (hbytes : L.wholeBytes = true) (h : w < 2 ^ L.bits) :
    L.wordOfBytes (L.bytesOfWord w) = w := by
  have hbits : L.bits = 8 * (L.bits / 8) := by have := of_decide_eq_true hbytes; omega
  have hw : w < 256 ^ (L.bits / 8) := by rwa [hbits, Nat.pow_mul] at h
  unfold Layout.wordOfBytes Layout.bytesOfWord
  cases L.byteOrder <;> simp [littleToNat_natToLittle hw]

/-- Settles O55: the first bytes spell the encoded word, which is below `2^bits` since the decoder accepts it. -/
theorem decodeReadsEncodedBytes : Obligations.DecodeReadsEncodedBytes := by
  intro L i rest hv hbytes hfits
  have hdecode := decodeReadsEncoded L i hv hfits
  obtain ⟨-, hlt⟩ := decodedWordIsEncoding L _ _ hdecode
  have hlen : (encodeBytes L i).length = L.bits / 8 := L.length_bytesOfWord _
  have hword : L.wordOfBytes (encodeBytes L i) = encode L i := Layout.wordOfBytes_bytesOfWord hbytes hlt
  simp [decodeBytes, hbytes, hlen, List.take_left' hlen, List.drop_left' hlen, hword, hdecode]

end Sys2Proof

/-! PROOF. The assembler (30_encoding.md R66, R70 to R75, 60_exceptions.md R221): what the common suffix of a line
gives or refuses, and how each mnemonic passes it on. -/

namespace Sys2Proof.Machine

/-! ### The postamble and the suffix of a line -/

/-- A last operand that is a postamble is taken off (R70). -/
theorem splitPostamble_concat (ops : List AsmOperand) {o : AsmOperand} (h : o.isShift = true) :
    splitPostamble (ops ++ [o]) = (ops, some o) := by
  simp [splitPostamble, h]

/-- The spelling ROL is refused as a literal and as a register count (R74). -/
theorem shiftOfOperand_rol (ix : PerReg (BitVec 4)) (n : Nat) (x : List Char) :
    shiftOfOperand ix (.shiftLit ['R', 'O', 'L'] n) = .error .rolSpelling ∧
      shiftOfOperand ix (.shiftReg ['R', 'O', 'L'] x) = .error .rolSpelling :=
  ⟨rfl, rfl⟩

section Suffix

variable {ix : PerReg (BitVec 4)} {l : AsmLine}

/-- A condition is refused first (R207). -/
theorem aluSuffix_of_cond (h : l.cond.isSome = true) : aluSuffix ix l = .error .conditionOnNonBranch := by
  simp only [aluSuffix, h]
  rfl

/-- Without a condition and under an admitted modifier the suffix is as good as its postamble (R67, R71). -/
theorem aluSuffix_of_modifier {ov : Override} {ops : List AsmOperand} {post : Option AsmOperand} (hc : l.cond = none)
    (hm : overrideOfModifier l.modifier = .ok ov) (hops : splitPostamble l.operands = (ops, post)) :
    aluSuffix ix l = (shiftOf ix post).map fun sh => (ov, sh, ops) := by
  simp only [aluSuffix, hc, hm, hops]
  cases shiftOf ix post <;> rfl

/-- What a Short Immediate line refuses in its suffix is refused (R183). -/
theorem assembleImm_error {e : AsmError} (h : aluSuffix ix l = .error e)
    (mk : Cond → Override → Reg → Word → Shift → Instr) : assembleImm mk ix l = .error e := by
  rw [assembleImm, h]; rfl

theorem assembleReg_error {e : AsmError} (h : aluSuffix ix l = .error e)
    (mk : Cond → Override → Reg → Reg → Reg → Shift → Instr) : assembleReg mk ix l = .error e := by
  rw [assembleReg, h]; rfl

theorem assembleCompare_error {e : AsmError} (h : aluSuffix ix l = .error e)
    (mk : Cond → Override → Reg → Reg → Shift → Instr) : assembleCompare mk ix l = .error e := by
  rw [assembleCompare, h]; rfl

theorem assembleCmpi_error {e : AsmError} (h : aluSuffix ix l = .error e) : assembleCmpi ix l = .error e := by
  unfold assembleCmpi
  split
  · exact assembleCompare_error h _
  · exact assembleImm_error h _

/-- Every mnemonic that takes a postamble passes on what the suffix refuses (R100). -/
theorem assembleLine_of_aluSuffix_error {e : AsmError} (hmn : l.mnemonic ∈ carrierMnemonics)
    (h : aluSuffix ix l = .error e) (labels : List (List Char × Nat)) : assembleLine ix labels l = .error e := by
  obtain ⟨mn, m, c, ops⟩ := l
  simp only [carrierMnemonics, shortImmMnemonics, List.cons_append, List.nil_append, List.mem_cons, List.not_mem_nil,
    or_false] at hmn
  rcases hmn with rfl | rfl | rfl | rfl | rfl | rfl | rfl | rfl | rfl | rfl
  exacts [assembleImm_error h _, assembleImm_error h _, assembleImm_error h _, assembleCmpi_error h,
    assembleReg_error h _, assembleReg_error h _, assembleReg_error h _, assembleReg_error h _,
    assembleCompare_error h _, assembleCompare_error h _]

/-- A Short Immediate line of the shape `rd, #imm` answers by its postamble, its register and its immediate, in this
order (R183, log 26). -/
theorem assembleImm_of_operands {ov : Override} {rd : List Char} {n : Nat} {post : Option AsmOperand}
    (hc : l.cond = none) (hm : overrideOfModifier l.modifier = .ok ov)
    (hops : splitPostamble l.operands = ([.name rd, .imm n], post))
    (mk : Cond → Override → Reg → Word → Shift → Instr) :
    assembleImm mk ix l = (do
      let sh ← shiftOf ix post
      let r ← regOfName rd
      let imm ← shortImmOf n
      return mk .always ov r imm sh) := by
  rw [assembleImm, aluSuffix_of_modifier hc hm hops]
  cases shiftOf ix post <;> rfl

/-- `CMPI rd, #imm` is a Short Immediate line; `CMPI ra, rb` is read as CMPR (R179, C6). -/
theorem assembleCmpi_imm {rd : List Char} {n : Nat} (h : (splitPostamble l.operands).1 = [.name rd, .imm n]) :
    assembleCmpi ix l = assembleImm .cmpi ix l := by
  rw [assembleCmpi, h]

theorem assembleCmpi_regs {ra rb : List Char} (h : (splitPostamble l.operands).1 = [.name ra, .name rb]) :
    assembleCmpi ix l = assembleCompare .cmpr ix l := by
  rw [assembleCmpi, h]

/-- A Short Immediate line is assembled by `assembleImm`, whatever its mnemonic. -/
theorem assembleLine_shortImm {rd : List Char} {n : Nat} (hmn : l.mnemonic ∈ shortImmMnemonics)
    (h : (splitPostamble l.operands).1 = [.name rd, .imm n]) (labels : List (List Char × Nat)) :
    ∃ mk, assembleLine ix labels l = assembleImm mk ix l := by
  obtain ⟨mn, m, c, ops⟩ := l
  simp only [shortImmMnemonics, List.mem_cons, List.not_mem_nil, or_false] at hmn
  rcases hmn with rfl | rfl | rfl | rfl
  case inr.inr.inr => exact ⟨_, assembleCmpi_imm h⟩
  all_goals exact ⟨_, rfl⟩

/-- An immediate of 128 or more is refused once the rest of the line is accepted (R66). -/
theorem assembleLine_shortImm_beyond {ov : Override} {rd : List Char} {r : Reg} {n : Nat} {post : Option AsmOperand}
    {sh : Shift} (hmn : l.mnemonic ∈ shortImmMnemonics) (hc : l.cond = none)
    (hm : overrideOfModifier l.modifier = .ok ov) (hops : splitPostamble l.operands = ([.name rd, .imm n], post))
    (hsh : shiftOf ix post = .ok sh) (hr : regOfName rd = .ok r) (hn : 127 < n) (labels : List (List Char × Nat)) :
    assembleLine ix labels l = .error .immediateOutOfRange := by
  obtain ⟨mk, hmk⟩ := assembleLine_shortImm (ix := ix) hmn (congrArg Prod.fst hops) labels
  have himm : shortImmOf n = .error .immediateOutOfRange := if_neg (Nat.not_le.2 hn)
  rw [hmk, assembleImm_of_operands hc hm hops, hsh, hr, himm]
  rfl

/-- A postamble on a LOAD is refused once its modifier is accepted (R202). -/
theorem assembleLoad_of_postamble {m : LoadModifier} (hc : l.cond = none) (hm : loadModifierOf l.modifier = .ok m)
    (hops : (splitPostamble l.operands).2.isSome = true) : assembleLoad l = .error .shiftNotShown := by
  simp only [assembleLoad, hc, hm, hops]
  rfl

/-- A postamble on a BRAN without a modifier is refused before its condition is read (R202). -/
theorem assembleBran_of_postamble (hm : l.modifier = none) (hops : (splitPostamble l.operands).2.isSome = true)
    (labels : List (List Char × Nat)) : assembleBran labels l = .error .shiftNotShown := by
  simp only [assembleBran, hm, hops]
  rfl

/-- The reason a postamble is refused for is the reason of the line (R70, R74). -/
theorem assembleLine_of_postamble_error {ov : Override} {ops : List AsmOperand} {o : AsmOperand} {e : AsmError}
    (hmn : l.mnemonic ∈ carrierMnemonics) (hc : l.cond = none) (hm : overrideOfModifier l.modifier = .ok ov)
    (hops : splitPostamble l.operands = (ops, some o)) (ho : shiftOfOperand ix o = .error e)
    (labels : List (List Char × Nat)) : assembleLine ix labels l = .error e := by
  refine assembleLine_of_aluSuffix_error hmn ?_ labels
  rw [aluSuffix_of_modifier hc hm hops, shiftOf, ho]
  rfl

end Suffix

/-- Settles O58: both sides read the postamble, then the register; the immediate 0 is accepted. Both compares look at
the operands without their postamble. -/
theorem assemblerExpandsShftAndCmpi : Obligations.AssemblerExpandsShftAndCmpi := by
  refine ⟨fun ix labels rd o ho => ?shft, fun ix labels ra rb m c post hpost => ?cmpi⟩
  case shft =>
    calc assembleShft ix ⟨['S', 'H', 'F', 'T'], none, none, [.name rd, o]⟩
      _ = (do
          let sh ← shiftOf ix (some o)
          let r ← regOfName rd
          let imm ← shortImmOf 0
          return .orri .always .s r imm sh) := rfl
      _ = assembleImm .orri ix ⟨['O', 'R', 'R', 'I'], some ['S'], none, [.name rd, .imm 0, o]⟩ :=
        (assembleImm_of_operands rfl rfl (splitPostamble_concat [.name rd, .imm 0] ho) _).symm
  case cmpi =>
    have hops : (splitPostamble ([.name ra, .name rb] ++ post)).1 = [.name ra, .name rb] := by
      rcases hpost with rfl | ⟨o, rfl, ho⟩
      · rfl
      · rw [splitPostamble_concat _ ho]
    exact assembleCmpi_regs hops

/-- Settles O60, clause by clause: LOAD and BRAN by their modifier and postamble, the others by the suffix of the line,
and the immediates last. -/
theorem assemblerRefusesByName : Obligations.AssemblerRefusesByName := by
  intro ix labels ops
  refine ⟨?loadModifier, ?branModifier, ?postamble, ?condition, ?rol, ?shftRol, ?immediate⟩
  case loadModifier =>
    intro m hm
    simp only [List.mem_cons, List.not_mem_nil, or_false] at hm
    rcases hm with rfl | rfl <;> rfl
  case branModifier => exact fun m c => rfl
  case postamble =>
    intro o ho
    have hops : (splitPostamble (ops ++ [o])).2.isSome = true := by rw [splitPostamble_concat ops ho]; rfl
    refine ⟨fun m hm => ?_, fun c =>
      assembleBran_of_postamble (l := ⟨['B', 'R', 'A', 'N'], none, c, ops ++ [o]⟩) rfl hops labels⟩
    simp only [List.mem_cons, List.not_mem_nil, or_false] at hm
    obtain ⟨k, hk⟩ : ∃ k, loadModifierOf m = .ok k := by rcases hm with rfl | rfl <;> exact ⟨_, rfl⟩
    exact assembleLoad_of_postamble (l := ⟨['L', 'O', 'A', 'D'], m, none, ops ++ [o]⟩) rfl hk hops
  case condition =>
    intro mn hmn m c
    rcases List.mem_append.1 hmn with hmn | hmn
    · exact assembleLine_of_aluSuffix_error hmn (aluSuffix_of_cond rfl) labels
    · simp only [List.mem_cons, List.not_mem_nil, or_false] at hmn
      rcases hmn with rfl | rfl <;> rfl
  case rol =>
    intro mn hmn m ov n x hm
    obtain ⟨hlit, hreg⟩ := shiftOfOperand_rol ix n x
    exact ⟨assembleLine_of_postamble_error hmn rfl hm (splitPostamble_concat ops rfl) hlit labels,
      assembleLine_of_postamble_error hmn rfl hm (splitPostamble_concat ops rfl) hreg labels⟩
  case shftRol => exact fun rd n x => ⟨rfl, rfl⟩
  case immediate =>
    intro mn hmn m ov rd r n hm hr hn
    exact ⟨assembleLine_shortImm_beyond hmn rfl hm rfl rfl hr hn labels, fun o sh ho hsh =>
      assembleLine_shortImm_beyond hmn rfl hm (splitPostamble_concat [.name rd, .imm n] ho)
        (show shiftOf ix (some o) = .ok sh from hsh) hr hn labels⟩

end Sys2Proof.Machine

/-! PROOF. The shift postamble (40_shift_postamble.md R100 to R109): where the count comes from, the effect of the
common step for every instruction that carries a shift, and the two-operand form of the assembler. -/

namespace Sys2Proof.Machine

/-! ### The count -/

/-- The default `countFromReg` faults with the value it was given (R107). -/
theorem countFromReg_fault {w : Word} (h : 16 ≤ w.toNat) :
    countFromReg .fault w = .error (.fault (.shiftCountOutOfRange w)) :=
  if_neg (by omega)

/-- Settles O12: each count that is delivered is one of the four cases of `CountOf`; the default faults. -/
theorem countFromRegisterByPolicy : Obligations.CountFromRegisterByPolicy := by
  refine fun w => ⟨fun hle p => ?small, fun hge => ⟨countFromReg_fault hge, ?lowFour, ?clamp, ?full⟩⟩ <;>
    rw [countFromReg_ok]
  case small => exact .inl ⟨hle, rfl⟩
  case lowFour => exact .inr (.inl ⟨hge, rfl, rfl⟩)
  case clamp => exact .inr (.inr (.inl ⟨hge, rfl, rfl⟩))
  case full => exact .inr (.inr (.inr ⟨hge, rfl, rfl⟩))

/-- A literal count is the field SC itself (R105). -/
theorem countIs_literal (s : State) {st : ShiftType} (hst : st ≠ .noShift) (sc : BitVec 4) :
    CountIs s ⟨st, .literal, sc⟩ sc.toNat :=
  .inr (.inl ⟨hst, rfl, rfl⟩)

/-- A register count is that of the register SC names (R105). -/
theorem State.shiftCount_register {s : State} {st : ShiftType} {sc : BitVec 4} {rc : Reg} (hst : st ≠ .noShift)
    (hrc : regOfNumber s.params.regIndex sc = some rc) :
    s.shiftCount ⟨st, .register, sc⟩ = countFromReg s.params.countFromReg (s.getReg rc) := by
  simp [State.shiftCount, hst, hrc]

/-- Settles O13: an injective `regIndex` names every register by its number. -/
theorem countComesFromWhereSoSays : Obligations.CountComesFromWhereSoSays := fun s _ hst =>
  ⟨fun sc => (shiftCount_ok s _ _).2 (countIs_literal s hst sc),
    fun hinj rc => State.shiftCount_register hst (regOfNumber_get hinj rc)⟩

/-! ### The effect of the common step -/

/-- The second source operand of a carrier (R101). -/
def carrierSource : Carrier → Second
  | .addi _ imm => .imm imm
  | .addr _ _ rb => .reg rb
  | .orri _ imm => .imm imm
  | .orrr _ _ rb => .reg rb
  | .andi _ imm => .imm imm
  | .andr _ _ rb => .reg rb
  | .xorr _ _ rb => .reg rb
  | .cmpi _ imm => .imm imm
  | .cmpr _ rb => .reg rb
  | .tsar _ rb => .reg rb

theorem carrierSource_value (s : State) (h : Carrier) : (carrierSource h).value s = carrierSecond s h := by
  cases h <;> rfl

/-- A carrier whose second source is a register reads it as it stands in the old state (R103). -/
theorem carrierSecond_of_reg {h : Carrier} {rb : Reg} (hrb : carrierSecondReg h = some rb) (s : State) :
    carrierSecond s h = s.getReg rb := by
  cases h <;> cases hrb <;> rfl

/-- Every carrier goes through the one common step (R170). -/
theorem carrierStep_eq_aluStep (h : Carrier) (sro : Override) (sh : Shift) (s : State) :
    carrierStep h sro sh s =
      s.aluStep (carrierOp h) (carrierDest h) (carrierFirst h) (carrierSource h) sh sro := by
  cases h <;> rfl

/-- The instruction of a carrier has the meaning its rows of ST and SO have (R100). -/
theorem exec_carrier_instr (h : Carrier) (sro : Override) (sh : Shift) (s : State) :
    exec (h.instr sro sh) s = carrierStep h sro sh s := by
  cases h <;> rfl

/-- The flag write after a write-back sees the flags, parameters and draws of the state before it (R146). -/
theorem State.writeBack_flagsWritten (s : State) (d : Option Reg) (x : Word) (sro : Override) (op : AluOp)
    (r : ShiftResult) (b : Word) :
    FlagsWritten s ((s.writeDest d x).writeFlags sro op r b).advance sro op r b := by
  obtain ⟨-, hsr, -, -, -, hparams, hdraws⟩ := s.writeDest_frame d x
  cases sro with
  | n => exact hsr
  | a => simp [FlagsWritten, State.writeFlags_a_sr, hsr, hparams, BitVec.msb_eq_getLsbD_last]
  | s =>
    obtain ⟨res, cout, vout⟩ := r
    cases vout <;>
      simp [FlagsWritten, State.writeFlags, State.flagsFromShift, State.drawn, hsr, hdraws, BitVec.msb_eq_getLsbD_last]

/-- A carrier whose shifter delivers a result completes with the whole effect of the common step (R170). -/
theorem carrierStep_effect {s : State} {h : Carrier} {sh : Shift} {r : ShiftResult}
    (hr : Shifted s (carrierFirst h) sh r) (sro : Override) :
    ∃ t, carrierStep h sro sh s = .next t ∧ CarrierEffect s t h sro r := by
  have hrun := State.aluStep_of_shifted hr (carrierOp h) (carrierDest h) (carrierSource h) sro
  rw [← carrierStep_eq_aluStep, carrierSource_value] at hrun
  have hadv := s.writeBack_advancedFrom (carrierDest h) (alu (carrierOp h) r.res (carrierSecond s h)) sro
    (carrierOp h) r (carrierSecond s h)
  refine ⟨_, hrun, fun d hd => ⟨?written, fun x hx => hadv.regs x ?other⟩, fun hd x => hadv.regs x ?kept,
    s.writeBack_flagsWritten _ _ sro _ r _, ⟨hadv.a, fun addr => by rw [hadv.mem], hadv.prog, hadv.params⟩, hadv.pc⟩
  case written => rw [hd, s.getReg_writeBack]
  case other => simpa [hd] using hx.symm
  case kept => simp [hd]

/-- Settles O27: each row of ST is the carrier with that shift type. -/
theorem shiftTypeRowsRun : Obligations.ShiftTypeRowsRun := fun _ _ sro _ _ _ =>
  ⟨(carrierStep_effect · sro), (carrierStep_effect · sro), (carrierStep_effect · sro), (carrierStep_effect · sro),
    (carrierStep_effect · sro), (carrierStep_effect · sro), (carrierStep_effect · sro)⟩

/-- Settles O28: each row of SO is the carrier with that count mode. -/
theorem countModeRowsRun : Obligations.CountModeRowsRun := fun _ _ sro _ _ _ =>
  ⟨(carrierStep_effect · sro), (carrierStep_effect · sro)⟩

/-! ### The second use of a register -/

/-- A register that is not the destination keeps its value (R103). -/
theorem CarrierEffect.getReg_of_ne_dest {s t : State} {h : Carrier} {sro : Override} {r : ShiftResult}
    (he : CarrierEffect s t h sro r) {x : Reg} (hx : carrierDest h ≠ some x) : t.getReg x = s.getReg x := by
  obtain ⟨hdest, hnone, -⟩ := he
  cases hd : carrierDest h with
  | none => exact hnone hd x
  | some d => exact (hdest d hd).2 x fun e => hx (e ▸ hd)

/-- Settles O34: the effect of the common step, with the second operand read off the state before; the example is the
sum of the register shifted and unshifted. -/
theorem secondUseIsUnshifted : Obligations.SecondUseIsUnshifted := by
  refine ⟨fun s h sro sh r hr => ?general, fun s sro rd ra k => ?lslExample⟩
  case general =>
    obtain ⟨t, ht, he⟩ := carrierStep_effect hr sro
    refine ⟨t, (exec_carrier_instr h sro sh s).trans ht, he.getReg_of_ne_dest, fun hsecond => ?_⟩
    obtain ⟨hdest, -, hflags, -⟩ := he
    rw [carrierSecond_of_reg hsecond] at hdest hflags
    exact ⟨fun d hd => (hdest d hd).1, hflags⟩
  case lslExample =>
    obtain ⟨r, hr, hres⟩ := shift_lsl_res (s.getReg ra) k.toNat s.sr.c
    have hsh : Shifted s ra ⟨.lsl, .literal, k⟩ r := ⟨_, countIs_literal s (by decide) k, hr⟩
    refine ⟨_, State.aluStep_of_shifted hsh .add (some rd) (.reg ra) sro, ?_⟩
    rw [s.getReg_writeBack]
    simp [alu, Second.value, hres, Nat.shiftLeft_eq]

/-! ### The two-operand form -/

/-- Operands that end in a name are kept whole, with or without a postamble after them (R67, R70). -/
theorem splitPostamble_names {post : List AsmOperand} (hpost : post = [] ∨ ∃ o, post = [o] ∧ o.isShift = true)
    (ops : List AsmOperand) (w : List Char) :
    splitPostamble (ops ++ [.name w] ++ post) = (ops ++ [.name w], post.head?) := by
  rcases hpost with rfl | ⟨o, rfl, ho⟩
  · simp [splitPostamble, AsmOperand.isShift]
  · exact splitPostamble_concat _ ho

/-- The suffix of a line by its condition, its modifier and its postamble, in this order (log 26). -/
theorem aluSuffix_of_split {ix : PerReg (BitVec 4)} {l : AsmLine} {ops : List AsmOperand} {post : Option AsmOperand}
    (hops : splitPostamble l.operands = (ops, post)) :
    aluSuffix ix l = (do
      if l.cond.isSome then throw .conditionOnNonBranch
      let o ← overrideOfModifier l.modifier
      let sh ← shiftOf ix post
      return (o, sh, ops)) := by
  rw [aluSuffix, hops]

/-- The two-operand form of a register line is the three-operand form with its first name repeated (R102, R183). -/
theorem assembleReg_two_operands {post : List AsmOperand}
    (hpost : post = [] ∨ ∃ o, post = [o] ∧ o.isShift = true) (mk : Cond → Override → Reg → Reg → Reg → Shift → Instr)
    (ix : PerReg (BitVec 4)) (mn rd rb : List Char) (m c : Option (List Char)) :
    assembleReg mk ix ⟨mn, m, c, [.name rd, .name rb] ++ post⟩ =
      assembleReg mk ix ⟨mn, m, c, [.name rd, .name rd, .name rb] ++ post⟩ := by
  rw [assembleReg, assembleReg, aluSuffix_of_split (splitPostamble_names hpost [.name rd] rb),
    aluSuffix_of_split (splitPostamble_names hpost [.name rd, .name rd] rb)]
  cases c with
  | some c => rfl
  | none =>
    cases overrideOfModifier m with
    | error e => rfl
    | ok o =>
      cases shiftOf ix post.head? with
      | error e => rfl
      | ok sh =>
        change (do let rd ← regOfName rd; let rb ← regOfName rb; return mk .always o rd rd rb sh) =
          (do let rd' ← regOfName rd; let ra ← regOfName rd; let rb ← regOfName rb; return mk .always o rd' ra rb sh)
        cases regOfName rd <;> rfl

/-- Settles O57: each of the four mnemonics is a register line. -/
theorem twoOperandFormRepeatsDestination : Obligations.TwoOperandFormRepeatsDestination := by
  intro ix labels mn rd rb m c post hmn hpost
  simp only [List.mem_cons, List.not_mem_nil, or_false] at hmn
  rcases hmn with rfl | rfl | rfl | rfl <;> exact assembleReg_two_operands hpost _ ix _ rd rb m c

end Sys2Proof.Machine

/-! PROOF. The shift types (41_shift_types.md R120 to R130): the arithmetic of each type at the counts 1 to 15, the
rotates as rotations of one ring, the reserved type, and the programs of two SHFTs. -/

namespace Sys2Proof.Machine

/-! ### What the shifter delivers -/

/-- Settles O1: the stage takes the count 0 without reading SO and SC, and type None looks at no count. -/
theorem shiftNoneReturnsOperand : Obligations.ShiftNoneReturnsOperand :=
  ⟨fun _ _ _ => rfl, fun s first so sc =>
    (shiftStage_ok s first ⟨.noShift, so, sc⟩ _).2 ⟨0, .inl ⟨rfl, rfl⟩, rfl⟩⟩

/-- Settles O2: each type tests for the count 0 first. -/
theorem countZeroShiftsNothing : Obligations.CountZeroShiftsNothing :=
  fun _ _ => ⟨rfl, rfl, rfl, rfl, rfl, rfl⟩

section Counts

variable (v : Word) {n : Nat} (cin : Bool)

theorem shift_lsl_of_pos (hn : 1 ≤ n) : shift .lsl v n cin = some ⟨v <<< n, some (leftCarry v n), .unspec⟩ :=
  congrArg some (if_neg (by omega))

theorem shift_lsr_of_pos (hn : 1 ≤ n) : shift .lsr v n cin = some ⟨v >>> n, some (rightCarry v n), .unspec⟩ :=
  congrArg some (if_neg (by omega))

theorem shift_asl_of_pos (hn : 1 ≤ n) : shift .asl v n cin = some ⟨v <<< n, some (leftCarry v n), aslOverflow v n⟩ :=
  congrArg some (if_neg (by omega))

theorem shift_asr_of_pos (hn : 1 ≤ n) :
    shift .asr v n cin = some ⟨v.sshiftRight n, some (arithCarry v n), .unspec⟩ :=
  congrArg some (if_neg (by omega))

theorem shift_rtl_of_pos (hn : 1 ≤ n) : shift .rtl v n cin = some (ofRing ((ring cin v).rotateLeft n)) :=
  congrArg some (if_neg (by omega))

theorem shift_rtr_of_pos (hn : 1 ≤ n) : shift .rtr v n cin = some (ofRing ((ring cin v).rotateRight n)) :=
  congrArg some (if_neg (by omega))

/-- The carry-out of a left shift within the word (R121). -/
theorem leftCarry_of_le (hn : n ≤ 15) : leftCarry v n = v.getLsbD (16 - n) :=
  if_pos (by omega)

/-- The carry-out of an arithmetic right shift within the word (R124). -/
theorem arithCarry_of_le (hn : n ≤ 15) : arithCarry v n = v.getLsbD (n - 1) := by
  rw [arithCarry, Nat.min_eq_left (by omega)]

end Counts

/-! ### The shifts as arithmetic -/

/-- A left shift multiplies modulo 65536 (R121). -/
theorem toNat_shiftLeft_word (v : Word) (n : Nat) : (v <<< n).toNat = v.toNat * 2 ^ n % 65536 := by
  rw [BitVec.toNat_shiftLeft, Nat.shiftLeft_eq]

/-- Settles O3. -/
theorem lslMultipliesModulo : Obligations.LslMultipliesModulo := by
  intro v n cin hpos hle
  refine ⟨_, shift_lsl_of_pos v cin hpos, toNat_shiftLeft_word v n, fun i hi => ?_,
    congrArg some (leftCarry_of_le v hle), rfl⟩
  simp only [BitVec.getLsbD_shiftLeft, hi, decide_true, Bool.true_and, ← decide_not, Nat.not_lt]

/-- Settles O4. -/
theorem lsrDividesUnsigned : Obligations.LsrDividesUnsigned := by
  intro v n cin hpos hle
  refine ⟨_, shift_lsr_of_pos v cin hpos, ?quotient, fun i hi => ?bit, rfl, rfl⟩
  case quotient => rw [BitVec.toNat_ushiftRight, Nat.shiftRight_eq_div_pow]
  case bit =>
    rw [BitVec.getLsbD_ushiftRight, Nat.add_comm n i]
    by_cases h : i + n < 16
    · simp [h]
    · simp [h, BitVec.getLsbD_of_ge v (i + n) (by omega)]

/-- Settles O6. -/
theorem asrDividesRoundingDown : Obligations.AsrDividesRoundingDown := by
  intro v n cin hpos hle
  refine ⟨_, shift_asr_of_pos v cin hpos, ?quotient, fun i hi => ?bit, congrArg some (arithCarry_of_le v hle), rfl⟩
  case quotient =>
    rw [BitVec.toInt_sshiftRight, Int.shiftRight_eq_div_pow, Int.fdiv_eq_ediv_of_nonneg _ (by positivity)]
    norm_cast
  case bit =>
    rw [BitVec.getLsbD_sshiftRight, BitVec.msb_eq_getLsbD_last, Nat.add_comm n i]
    by_cases h : i + n ≤ 15
    · simp [h, Nat.lt_succ_of_le h, hi]
    · simp [h, show ¬ i + n < 16 by omega, hi]

/-! ### The overflow of ASL -/

/-- The sign after `k` single shifts is bit `15 - k` of the operand (R123). -/
theorem signAfter_of_le (v : Word) {k : Nat} (hk : k ≤ 15) : signAfter v k = v.getLsbD (15 - k) := by
  rw [signAfter, BitVec.getLsbD_shiftLeft]
  simp [Nat.not_lt.2 hk]

/-- The sign never differs on the way to a count of at most 15 (R123). -/
theorem forall_signAfter_iff (v : Word) {n : Nat} (hn : n ≤ 15) :
    (List.range (min n 16 + 1)).all (fun k => signAfter v k == v.getLsbD 15) = true ↔
      ∀ k, k ≤ n → signAfter v k = v.getLsbD 15 := by
  simp [List.all_eq_true, Nat.min_eq_left (show n ≤ 16 by omega)]

/-- The overflow indication is 1 where the sign ends different (R123). -/
theorem aslOverflow_of_sign_ne {v : Word} {n : Nat} (h : signAfter v n ≠ v.getLsbD 15) :
    aslOverflow v n = .bit true :=
  if_pos h

/-- The overflow indication is 0 just where the sign never differs (R123). -/
theorem aslOverflow_eq_false_iff {v : Word} {n : Nat} (hn : n ≤ 15) :
    aslOverflow v n = .bit false ↔ ∀ k, k ≤ n → signAfter v k = v.getLsbD 15 := by
  by_cases hend : signAfter v n = v.getLsbD 15
  · rw [aslOverflow, if_neg (not_not.2 hend), ← forall_signAfter_iff v hn]
    simp only [ite_eq_left_iff, reduceCtorEq, imp_false, not_not]
  · rw [aslOverflow_of_sign_ne hend]
    exact iff_of_false (by decide) fun h => hend (h n le_rfl)

/-- The overflow indication is undetermined where the sign comes back after it differed (R123, D9). -/
theorem aslOverflow_of_sign_returns {v : Word} {n k : Nat} (hn : n ≤ 15) (hend : signAfter v n = v.getLsbD 15)
    (hk : k ≤ n) (hdiff : signAfter v k ≠ v.getLsbD 15) : aslOverflow v n = .any := by
  have hnot : ¬ ∀ k, k ≤ n → signAfter v k = v.getLsbD 15 := fun h => hdiff (h k hk)
  rw [← forall_signAfter_iff v hn] at hnot
  rw [aslOverflow, if_neg (not_not.2 hend), if_neg hnot]

/-- Settles O5: the three cases of the sign after each of the single shifts. -/
theorem aslShiftsAndJudgesSign : Obligations.AslShiftsAndJudgesSign := by
  intro v n cin hpos hle
  have hsign : ∀ {k}, k ≤ n → signAfter v k = v.getLsbD (15 - k) := fun hk => signAfter_of_le v (hk.trans hle)
  refine ⟨_, shift_asl_of_pos v cin hpos, toNat_shiftLeft_word v n, congrArg some (leftCarry_of_le v hle),
    aslOverflow_of_sign_ne, fun h => ?never, fun hend ⟨k, hk, hdiff⟩ => ?returns⟩
  case never => exact (aslOverflow_eq_false_iff hle).2 fun k hk => (hsign hk).trans (h k hk)
  case returns => exact aslOverflow_of_sign_returns hle hend hk (by rwa [hsign hk])

/-- One left shift that keeps the sign doubles the signed value. -/
theorem toInt_shiftLeft_one {v : Word} (h : (v <<< 1).getLsbD 15 = v.getLsbD 15) :
    (v <<< 1).toInt = v.toInt * 2 := by
  have hmsb : (v <<< 1).msb = v.msb := by simpa [BitVec.msb_eq_getLsbD_last] using h
  have hdouble := toNat_shiftLeft_word v 1
  have hlt := v.isLt
  simp only [BitVec.msb_eq_decide, decide_eq_decide] at hmsb
  rw [BitVec.toInt_eq_toNat_cond, BitVec.toInt_eq_toNat_cond]
  split <;> split <;> omega

/-- Left shifts that keep the sign at every single shift multiply the signed value exactly (R130 (d)). -/
theorem toInt_shiftLeft_of_sign_kept {v : Word} {n : Nat} (h : ∀ k, k ≤ n → signAfter v k = v.getLsbD 15) :
    (v <<< n).toInt = v.toInt * 2 ^ n := by
  induction n with
  | zero => simp
  | succ n ih =>
    have hkept : ((v <<< n) <<< 1).getLsbD 15 = (v <<< n).getLsbD 15 := by
      rw [← BitVec.shiftLeft_add]
      exact (h (n + 1) le_rfl).trans (h n n.le_succ).symm
    rw [BitVec.shiftLeft_add, toInt_shiftLeft_one hkept, ih fun k hk => h k (hk.trans n.le_succ), pow_succ,
      mul_assoc]

/-- Settles O10: an overflow indication of 0 says that no single shift changed the sign. -/
theorem aslWithoutOverflowIsExact : Obligations.AslWithoutOverflowIsExact := by
  intro v n cin r hle hr hv
  obtain rfl | hpos := Nat.eq_zero_or_pos n
  · obtain rfl := Option.some.inj hr
    simp
  · obtain rfl := Option.some.inj ((shift_asl_of_pos v cin hpos).symm.trans hr)
    exact toInt_shiftLeft_of_sign_kept ((aslOverflow_eq_false_iff hle).1 hv)

/-! ### The ring of the rotates -/

theorem getLsbD_ring (c : Bool) (v : Word) (i : Nat) : (ring c v).getLsbD i = ringBit c v i :=
  BitVec.getLsbD_cons c v i

/-- The result and carry-out read back from a ring have its bits (R125). -/
theorem ringBit_ofRing (r : BitVec 17) {i : Nat} (hi : i < 17) :
    ringBit (r.getLsbD 16) (r.setWidth 16) i = r.getLsbD i := by
  by_cases h : i = 16
  · simp [ringBit, h]
  · simp [ringBit, h, show i < 16 by omega]

/-- A ring is the one formed of its result and carry-out. -/
theorem ring_ofRing (r : BitVec 17) : ring (r.getLsbD 16) (r.setWidth 16) = r :=
  BitVec.cons_msb_setWidth r

theorem ofRing_ring (c : Bool) (v : Word) : ofRing (ring c v) = ⟨v, some c, .unspec⟩ := by
  rw [ofRing, getLsbD_ring, ring, BitVec.setWidth_cons]
  rfl

/-- Rotating the ring left moves bit `i` to bit `(i + n) mod 17` (R125). -/
theorem getLsbD_rotateLeft_ring (r : BitVec 17) {n i : Nat} (hn : n ≤ 15) (hi : i < 17) :
    (r.rotateLeft n).getLsbD ((i + n) % 17) = r.getLsbD i := by
  rw [BitVec.getLsbD_rotateLeft_of_le (by omega)]
  by_cases hwrap : i + n < 17
  · rw [Nat.mod_eq_of_lt hwrap]
    simp [hwrap]
  · have hmod : (i + n) % 17 = i + n - 17 := by omega
    simp [hmod, show i + n - 17 < n by omega, show 17 - n + (i + n - 17) = i by omega]

/-- Rotating the ring right brings bit `(i + n) mod 17` to bit `i` (R126). -/
theorem getLsbD_rotateRight_ring (r : BitVec 17) {n i : Nat} (hn : n ≤ 15) (hi : i < 17) :
    (r.rotateRight n).getLsbD i = r.getLsbD ((i + n) % 17) := by
  rw [BitVec.getLsbD_rotateRight_of_lt (by omega)]
  by_cases hwrap : i + n < 17
  · simp [Nat.mod_eq_of_lt hwrap, show i < 17 - n by omega, Nat.add_comm n i]
  · have hmod : (i + n) % 17 = i - (17 - n) := by omega
    simp [hmod, show ¬ i < 17 - n by omega, hi]

/-- Settles O7: the bit of the ring that comes to the carry is bit `16 - n`. -/
theorem rtlRotatesRingLeft : Obligations.RtlRotatesRingLeft := by
  intro v n cin hpos hle
  have hcarry : ((ring cin v).rotateLeft n).getLsbD 16 = v.getLsbD (16 - n) := by
    have h := getLsbD_rotateLeft_ring (ring cin v) hle (show 16 - n < 17 by omega)
    rwa [Nat.sub_add_cancel (by omega), getLsbD_ring, ringBit, if_neg (by omega)] at h
  rw [← hcarry]
  refine ⟨_, shift_rtl_of_pos v cin hpos, fun i hi => ?_⟩
  rw [ringBit_ofRing _ (Nat.mod_lt _ (by decide)), getLsbD_rotateLeft_ring _ hle hi, getLsbD_ring]

/-- Settles O8: the bit of the ring that comes to the carry is bit `n - 1`. -/
theorem rtrRotatesRingRight : Obligations.RtrRotatesRingRight := by
  intro v n cin hpos hle
  have hcarry : ((ring cin v).rotateRight n).getLsbD 16 = v.getLsbD (n - 1) := by
    rw [getLsbD_rotateRight_ring _ hle (by decide), getLsbD_ring, show (16 + n) % 17 = n - 1 by omega, ringBit,
      if_neg (by omega)]
  rw [← hcarry]
  refine ⟨_, shift_rtr_of_pos v cin hpos, fun i hi => ?_⟩
  rw [ringBit_ofRing _ hi, getLsbD_rotateRight_ring _ hle hi, getLsbD_ring]

theorem rotateRight_rotateLeft_ring (r : BitVec 17) {n : Nat} (hn : n ≤ 15) : (r.rotateLeft n).rotateRight n = r := by
  refine BitVec.eq_of_getLsbD_eq fun i hi => ?_
  rw [getLsbD_rotateRight_ring _ hn hi, getLsbD_rotateLeft_ring _ hn hi]

/-- RTR takes what RTL delivers back to the operand and the carry (R130 (e)). -/
theorem shift_rtr_of_shift_rtl {v : Word} {n : Nat} {cin : Bool} {r : ShiftResult} (hpos : 1 ≤ n) (hle : n ≤ 15)
    (hr : shift .rtl v n cin = some r) :
    shift .rtr r.res n (r.cout.getD cin) = some ⟨v, some cin, .unspec⟩ := by
  obtain rfl := Option.some.inj ((shift_rtl_of_pos v cin hpos).symm.trans hr)
  rw [shift_rtr_of_pos _ _ hpos, ← ofRing_ring cin v]
  simp only [ofRing, Option.getD_some, ring_ofRing, rotateRight_rotateLeft_ring _ hle]

/-! ### The reserved type -/

/-- A faulting shift stage faults the whole step (R170, R222). -/
theorem State.aluStep_of_shiftFaults {s : State} {sh : Shift} {f : Fault} (h : ShiftFaults s sh f) (op : AluOp)
    (d : Option Reg) (first : Reg) (b : Second) (o : Override) : s.aluStep op d first b sh o = .fault f := by
  rw [State.aluStep, shiftStage_fault first h]
  rfl

theorem carrierStep_of_shiftFaults {s : State} {sh : Shift} {f : Fault} (hf : ShiftFaults s sh f) (h : Carrier)
    (sro : Override) : carrierStep h sro sh s = .fault f := by
  rw [carrierStep_eq_aluStep, State.aluStep_of_shiftFaults hf]

/-- Settles O9: ST = 111 faults in the common step, which every one of these instructions runs. -/
theorem reservedTypeFaults : Obligations.ReservedTypeFaults := by
  have hf : ∀ (s : State) (so : CountMode) (sc : BitVec 4), ShiftFaults s ⟨.reserved, so, sc⟩ .reservedShiftType :=
    fun _ _ _ => .inl ⟨rfl, rfl⟩
  refine ⟨fun _ _ _ => rfl, fun h sro so sc s => ⟨?row, ?carrier, ?literal, ?register⟩, fun rd so sc s => ?shft⟩
  case row => exact carrierStep_of_shiftFaults (hf s so sc) h sro
  case carrier => exact (exec_carrier_instr h sro _ s).trans (carrierStep_of_shiftFaults (hf s so sc) h sro)
  case literal => exact carrierStep_of_shiftFaults (hf s .literal sc) h sro
  case register => exact carrierStep_of_shiftFaults (hf s .register sc) h sro
  case shft => exact State.aluStep_of_shiftFaults (hf s so sc) .orr (some rd) rd (.imm 0) .s

/-! ### Programs of two SHFTs -/

/-- SHFT by a literal count leaves the shifter's result in its register and the carry-out in C (R181). -/
theorem exec_shft_literal {s : State} {rd : Reg} {st : ShiftType} {k : BitVec 4} {r : ShiftResult}
    (hst : st ≠ .noShift) (hr : shift st (s.getReg rd) k.toNat s.sr.c = some r) :
    ∃ t, exec (.shft rd ⟨st, .literal, k⟩) s = .next t ∧ t.getReg rd = r.res ∧ OthersKept s t rd ∧
      t.sr.c = r.cout.getD s.sr.c := by
  obtain ⟨t, ht, hdest, -, ⟨-, -, hc, -⟩, -⟩ :=
    carrierStep_effect (h := .orri rd 0) ⟨_, countIs_literal s hst k, hr⟩ .s
  obtain ⟨hrd, hothers⟩ := hdest rd rfl
  exact ⟨t, ht, by simpa [alu, carrierOp, carrierSecond] using hrd, hothers, hc⟩

/-- Settles O11. -/
theorem rotateRightUndoesRotateLeft : Obligations.RotateRightUndoesRotateLeft := by
  intro s rd k hk
  have hpos : 1 ≤ k.toNat := Nat.pos_of_ne_zero fun h => hk (BitVec.eq_of_toNat_eq h)
  have hle : k.toNat ≤ 15 := Nat.le_of_lt_succ k.isLt
  have hleft := shift_rtl_of_pos (s.getReg rd) s.sr.c hpos
  obtain ⟨t, ht, htr, -, htc⟩ := exec_shft_literal (by decide) hleft
  have hright := shift_rtr_of_shift_rtl hpos hle hleft
  rw [← htr, ← htc] at hright
  obtain ⟨u, hu, hur, -, huc⟩ := exec_shft_literal (by decide) hright
  exact ⟨t, u, ht, hu, hur, huc⟩

/-- RTL by 1 doubles the word and takes the carry in at the bottom. -/
theorem shift_rtl_one (v : Word) (cin : Bool) :
    ∃ r, shift .rtl v 1 cin = some r ∧ r.res.toNat = (v.toNat * 2 + cin.toNat) % 65536 ∧
      r.cout = some (v.getLsbD 15) := by
  obtain ⟨res, hr, hbits⟩ := rtlRotatesRingLeft v 1 cin (by decide) (by decide)
  have hres : res = (v.concat cin).setWidth 16 := by
    refine BitVec.eq_of_getLsbD_eq fun i hi => ?_
    rw [BitVec.getLsbD_setWidth, BitVec.getLsbD_concat]
    cases i with
    | zero => simpa [ringBit] using hbits 16 (by decide)
    | succ j =>
      have h := hbits j (by omega)
      rw [Nat.mod_eq_of_lt (by omega), ringBit, if_neg (by omega), ringBit, if_neg (by omega)] at h
      simpa [hi] using h
  exact ⟨_, hr, by simp [hres], rfl⟩

/-- RTR by 1 halves the word and takes the carry in at the top. -/
theorem shift_rtr_one (v : Word) (cin : Bool) :
    ∃ r, shift .rtr v 1 cin = some r ∧ r.res.toNat = v.toNat / 2 + cin.toNat * 32768 ∧
      r.cout = some (v.getLsbD 0) := by
  obtain ⟨res, hr, hbits⟩ := rtrRotatesRingRight v 1 cin (by decide) (by decide)
  have hres : res = ((ring cin v) >>> 1).setWidth 16 := by
    refine BitVec.eq_of_getLsbD_eq fun i hi => ?_
    have h := hbits i (by omega)
    rw [Nat.mod_eq_of_lt (by omega), ringBit, if_neg (by omega)] at h
    simpa [hi, getLsbD_ring, Nat.add_comm] using h
  have hcin : cin.toNat ≤ 1 := cin.toNat_le
  have hv := v.isLt
  refine ⟨_, hr, ?_, rfl⟩
  simp only [hres, ring, BitVec.toNat_setWidth, BitVec.toNat_ushiftRight, BitVec.toNat_cons', Nat.shiftLeft_eq,
    Nat.shiftRight_eq_div_pow]
  omega

/-- A bit as a number, in the form the arithmetic of a pair needs. -/
theorem toNat_getLsbD_word (v : Word) (i : Nat) : (v.getLsbD i).toNat = v.toNat / 2 ^ i % 2 :=
  Nat.toNat_testBit v.toNat i

/-- Settles O35: the bit that leaves the low word enters the high word through C. -/
theorem wordPairShiftsLeft : Obligations.WordPairShiftsLeft := by
  intro s hi lo hne
  obtain ⟨r, hr, hlow, -, hout, -⟩ := lslMultipliesModulo (s.getReg lo) 1 s.sr.c (by decide) (by decide)
  obtain ⟨t, ht, htlo, htothers, htc⟩ := exec_shft_literal (k := 1) (by decide) hr
  obtain ⟨q, hq, hhigh, hqout⟩ := shift_rtl_one (t.getReg hi) t.sr.c
  obtain ⟨u, hu, huhi, huothers, huc⟩ := exec_shft_literal (k := 1) (by decide) hq
  have hcarry := toNat_getLsbD_word (s.getReg lo) (16 - 1)
  have hlt := (s.getReg lo).isLt
  refine ⟨t, u, ht, hu, ?value, by rw [huc, hqout, htothers hi hne]; rfl⟩
  case value =>
    rw [htothers hi hne, htc, hout, Option.getD_some] at hhigh
    rw [pairValue, pairValue, huhi, huothers lo hne.symm, htlo, hhigh, hlow]
    omega

/-- A right shift of the high word by 1, then SHFT RTR #1 on the low word: the bit that leaves the high word enters
the low word through C, and the old bit 0 of the low word ends in C (R130 (f)). -/
theorem exec_shft_pair_right {s : State} {hi lo : Reg} {st : ShiftType} {r : ShiftResult} (hne : hi ≠ lo)
    (hst : st ≠ .noShift) (hr : shift st (s.getReg hi) 1 s.sr.c = some r)
    (hout : r.cout = some ((s.getReg hi).getLsbD 0)) :
    ∃ t u, exec (.shft hi ⟨st, .literal, 1⟩) s = .next t ∧ exec (.shft lo ⟨.rtr, .literal, 1⟩) t = .next u ∧
      u.getReg hi = r.res ∧
      (u.getReg lo).toNat = (s.getReg lo).toNat / 2 + (s.getReg hi).toNat % 2 * 32768 ∧
      u.sr.c = (s.getReg lo).getLsbD 0 := by
  obtain ⟨t, ht, hthi, htothers, htc⟩ := exec_shft_literal (k := 1) hst hr
  obtain ⟨q, hq, hlow, hqout⟩ := shift_rtr_one (t.getReg lo) t.sr.c
  obtain ⟨u, hu, hulo, huothers, huc⟩ := exec_shft_literal (k := 1) (by decide) hq
  rw [htothers lo hne.symm] at hlow hqout
  refine ⟨t, u, ht, hu, (huothers hi hne).trans hthi, ?low, by rw [huc, hqout]; rfl⟩
  case low =>
    rw [hulo, hlow, htc, hout, Option.getD_some, toNat_getLsbD_word, pow_zero, Nat.div_one]

/-- A 16-bit value is odd as a signed number just where it is odd as an unsigned one. -/
theorem toInt_emod_two (v : Word) : v.toInt % 2 = (v.toNat : Int) % 2 := by
  rw [BitVec.toInt_eq_toNat_cond]
  split <;> omega

/-- Settles O36: the high word is halved unsigned by LSR and signed by ASR. -/
theorem wordPairShiftsRight : Obligations.WordPairShiftsRight := by
  refine fun s hi lo hne => ⟨?unsigned, ?signed⟩
  case unsigned =>
    obtain ⟨r, hr, hhigh, -, hout, -⟩ := lsrDividesUnsigned (s.getReg hi) 1 s.sr.c le_rfl (by decide)
    obtain ⟨t, u, ht, hu, huhi, hulo, huc⟩ := exec_shft_pair_right hne (by decide) hr hout
    refine ⟨t, u, ht, hu, ?_, huc⟩
    rw [pairValue, pairValue, huhi, hhigh, hulo]
    omega
  case signed =>
    obtain ⟨r, hr, hhigh, -, hout, -⟩ := asrDividesRoundingDown (s.getReg hi) 1 s.sr.c le_rfl (by decide)
    obtain ⟨t, u, ht, hu, huhi, hulo, huc⟩ := exec_shft_pair_right hne (by decide) hr hout
    have hparity := toInt_emod_two (s.getReg hi)
    refine ⟨t, u, ht, hu, ?_, huc⟩
    rw [huhi, hhigh, hulo, Int.fdiv_eq_ediv_of_nonneg _ (by decide), Int.fdiv_eq_ediv_of_nonneg _ (by decide)]
    omega

end Sys2Proof.Machine

/-! PROOF. The flags and the status override of an instruction that carries a shift (42_shift_flags_status_override.md
R140 to R151): what `[S]` and `[N]` write, what the override cannot change, and a conditional instruction. -/

namespace Sys2Proof.Machine

/-! ### What an override writes -/

/-- Settles O29: the flag write under `[S]`, with the carry kept where there is no carry-out. -/
theorem shiftFlagsUnderS : Obligations.ShiftFlagsUnderS := by
  intro s h sh r hr
  obtain ⟨t, ht, -, -, ⟨hz, hn, hc, hv⟩, -⟩ := carrierStep_effect hr .s
  refine ⟨t, (exec_carrier_instr h .s sh s).trans ht, fun b hb => ?carryOut, fun hb => ?carryKept, hz, hn,
    fun b hb => ?overflowBit, fun hopen => ?overflowFree⟩
  case carryOut => rw [hc, hb, Option.getD_some]
  case carryKept => rw [hc, hb, Option.getD_none]
  case overflowBit => simpa only [hb] using hv
  case overflowFree => rcases hopen with hb | hb <;> simpa only [hb] using hv

/-- Settles O30: the flag write under `[N]` is none. -/
theorem noFlagsUnderN : Obligations.NoFlagsUnderN := by
  intro s h sh r hr
  obtain ⟨t, ht, -, -, hflags, -⟩ := carrierStep_effect hr .n
  exact ⟨t, (exec_carrier_instr h .n sh s).trans ht, hflags⟩

/-! ### What the override cannot change -/

/-- A carrier that completes has written back the ALU result of what its shift stage delivered; neither depends on the
override, and the flag write leaves every register alone (R146, R170). -/
theorem carrierStep_next_getReg {h : Carrier} {o : Override} {sh : Shift} {s t : State}
    (ht : carrierStep h o sh s = .next t) :
    ∃ r, s.shiftStage (carrierFirst h) sh = .ok r ∧
      ∀ x, t.getReg x =
        (s.writeDest (carrierDest h) (alu (carrierOp h) r.res (carrierSecond s h))).getReg x := by
  rw [carrierStep_eq_aluStep] at ht
  rcases s.aluStep_cases (carrierOp h) (carrierDest h) (carrierFirst h) (carrierSource h) sh o with
    ⟨e, -, he⟩ | ⟨r, hr, hnext⟩
  · exact absurd (he.symm.trans ht) (e.raise_ne_next t)
  · obtain rfl := Host.Outcome.next.inj (hnext.symm.trans ht)
    exact ⟨r, hr, fun x => by simp [carrierSource_value]⟩

/-- Settles O32: both runs have one shift stage, and so one value written back. -/
theorem overrideChangesOnlyFlags : Obligations.OverrideChangesOnlyFlags := by
  intro s t u h o o' sh ht hu
  rw [exec_carrier_instr] at ht hu
  have hadvt := carrierStep_advancedFrom ht
  have hadvu := carrierStep_advancedFrom hu
  obtain ⟨r, hr, hregt⟩ := carrierStep_next_getReg ht
  obtain ⟨q, hq, hregu⟩ := carrierStep_next_getReg hu
  obtain rfl : r = q := Except.ok.inj (hr.symm.trans hq)
  exact ⟨fun x => (hregt x).trans (hregu x).symm, hadvt.mem.trans hadvu.mem.symm, hadvt.a.trans hadvu.a.symm,
    hadvt.pc.trans hadvu.pc.symm⟩

/-! ### Conditional instructions -/

theorem State.whenCond_of_holds {s : State} {c : Cond} (hc : s.condHolds c = some true)
    (run : Host.Outcome State Fault Refusal) : s.whenCond c run = run := by
  rw [State.whenCond, hc]

theorem State.whenCond_of_fails {s : State} {c : Cond} (hc : s.condHolds c = some false)
    (run : Host.Outcome State Fault Refusal) : s.whenCond c run = .next s.advance := by
  rw [State.whenCond, hc]

/-- A carrier under a condition is conditional execution of the unconditional carrier (R151). -/
theorem exec_carrierUnder (h : Carrier) (c : Cond) (sro : Override) (sh : Shift) (s : State) :
    exec (carrierUnder c sro sh h) s = s.whenCond c (exec (h.instr sro sh) s) := by
  cases h <;> rfl

/-- Settles O42, by the two answers of the condition. -/
theorem conditionSuppressesInstruction : Obligations.ConditionSuppressesInstruction := by
  intro s h c sro sh
  rw [exec_carrierUnder]
  exact ⟨fun hc => State.whenCond_of_holds hc _, fun hc => State.whenCond_of_fails hc _⟩

end Sys2Proof.Machine

/-! PROOF. The ALU instructions (43_alu_instructions.md R170 to R182): each is one carrier of the common step, so what
is left to say of it is its ALU operation, and the flags `[A]` takes from that. -/

namespace Sys2Proof.Machine

/-! ### The common step, seen from the instruction -/

theorem exec_carrier_effect {s : State} {h : Carrier} {sh : Shift} {r : ShiftResult}
    (hr : Shifted s (carrierFirst h) sh r) (sro : Override) :
    ∃ t, exec (h.instr sro sh) s = .next t ∧ CarrierEffect s t h sro r := by
  rw [exec_carrier_instr]
  exact carrierStep_effect hr sro

theorem exec_carrier_of_shiftFaults {s : State} {sh : Shift} {f : Fault} (hf : ShiftFaults s sh f) (h : Carrier)
    (sro : Override) : exec (h.instr sro sh) s = .fault f := by
  rw [exec_carrier_instr, carrierStep_of_shiftFaults hf]

/-- A carrier stops as its shift stage stops, faulting or refused (R109, R170). -/
theorem exec_carrier_of_shiftStage_error {s : State} {h : Carrier} {sh : Shift} {e : Stop}
    (he : s.shiftStage (carrierFirst h) sh = .error e) (sro : Override) : exec (h.instr sro sh) s = e.raise := by
  rw [exec_carrier_instr, carrierStep_eq_aluStep, State.aluStep, he]

/-- Settles O15: every carrier goes through the one common step. -/
theorem aluStepHasItsEffect : Obligations.AluStepHasItsEffect := fun _ h sro _ =>
  ⟨fun _ hf => exec_carrier_of_shiftFaults hf h sro, fun _ hr => exec_carrier_effect hr sro,
    fun _ he => exec_carrier_of_shiftStage_error he sro⟩

/-! ### Instructions that write a register -/

/-- The form of R171 to R177: a carrier with a destination leaves the ALU result there, so any `P` that holds of the ALU
result holds of the register written; nothing but that register, the flags and `pc` is touched. -/
theorem exec_carrier_with_dest {h : Carrier} {d : Reg} (hd : carrierDest h = some d) (s : State) (sro : Override)
    (sh : Shift) {P : ShiftResult → Word → Prop} (hP : ∀ r, P r (alu (carrierOp h) r.res (carrierSecond s h))) :
    (∀ r, Shifted s (carrierFirst h) sh r → ∃ t, exec (h.instr sro sh) s = .next t ∧ P r (t.getReg d) ∧
      OthersKept s t d ∧ FlagsWritten s t sro (carrierOp h) r (carrierSecond s h) ∧ FrameKept s t ∧
      t.pc = s.pc + 1) ∧
    ∀ f, ShiftFaults s sh f → exec (h.instr sro sh) s = .fault f := by
  refine ⟨fun r hr => ?_, fun f hf => exec_carrier_of_shiftFaults hf h sro⟩
  obtain ⟨t, ht, hdest, -, hflags, hframe, hpc⟩ := exec_carrier_effect hr sro
  obtain ⟨hval, hothers⟩ := hdest d hd
  exact ⟨t, ht, hval ▸ hP r, hothers, hflags, hframe, hpc⟩

/-- Settles O16: the sum of two words is the sum of their values modulo 2^16. -/
theorem addiAddsImmediate : Obligations.AddiAddsImmediate := fun s sro rd imm sh =>
  exec_carrier_with_dest (h := .addi rd imm) rfl s sro sh
    (P := fun r w => w.toNat = (r.res.toNat + imm.toNat) % 65536)
    fun r => BitVec.toNat_add r.res imm

/-- Settles O17: the sum of O16, of two registers. -/
theorem addrAddsRegister : Obligations.AddrAddsRegister := fun s sro rd ra rb sh =>
  exec_carrier_with_dest (h := .addr rd ra rb) rfl s sro sh
    (P := fun r w => w.toNat = (r.res.toNat + (s.getReg rb).toNat) % 65536)
    fun r => BitVec.toNat_add r.res (s.getReg rb)

/-- Settles O18: the first source is the register, which is shifted; the immediate comes in as it stands. -/
theorem orriOrsImmediate : Obligations.OrriOrsImmediate := fun s sro rd imm sh =>
  exec_carrier_with_dest (h := .orri rd imm) rfl s sro sh
    (P := fun r w => ∀ i, i < 16 → w.getLsbD i = (r.res.getLsbD i || imm.getLsbD i))
    fun _ _ _ => BitVec.getLsbD_or

/-- Settles O19: the ALU operation is an OR of two registers. -/
theorem orrrOrsRegister : Obligations.OrrrOrsRegister := fun s sro rd ra rb sh =>
  exec_carrier_with_dest (h := .orrr rd ra rb) rfl s sro sh
    (P := fun r w => ∀ i, i < 16 → w.getLsbD i = (r.res.getLsbD i || (s.getReg rb).getLsbD i))
    fun _ _ _ => BitVec.getLsbD_or

/-- Settles O20: the ALU operation is an AND with the immediate. -/
theorem andiAndsImmediate : Obligations.AndiAndsImmediate := fun s sro rd imm sh =>
  exec_carrier_with_dest (h := .andi rd imm) rfl s sro sh
    (P := fun r w => ∀ i, i < 16 → w.getLsbD i = (r.res.getLsbD i && imm.getLsbD i))
    fun _ _ _ => BitVec.getLsbD_and

/-- Settles O21: the ALU operation is an AND of two registers. -/
theorem andrAndsRegister : Obligations.AndrAndsRegister := fun s sro rd ra rb sh =>
  exec_carrier_with_dest (h := .andr rd ra rb) rfl s sro sh
    (P := fun r w => ∀ i, i < 16 → w.getLsbD i = (r.res.getLsbD i && (s.getReg rb).getLsbD i))
    fun _ _ _ => BitVec.getLsbD_and

/-- Settles O22: the second source of the common step is read in the old state. -/
theorem xorrXorsRegister : Obligations.XorrXorsRegister := fun s sro rd ra rb sh =>
  exec_carrier_with_dest (h := .xorr rd ra rb) rfl s sro sh
    (P := fun r w => ∀ i, i < 16 → w.getLsbD i = xor (r.res.getLsbD i) ((s.getReg rb).getLsbD i))
    fun _ _ _ => BitVec.getLsbD_xor

/-- Settles O26: the expansion of SHFT is its meaning, and or-ing with zero changes nothing. -/
theorem shftShiftsInPlace : Obligations.ShftShiftsInPlace := fun s rd sh =>
  ⟨rfl, exec_carrier_with_dest (h := .orri rd 0) rfl s .s sh (P := fun r w => w = r.res) fun _ => BitVec.or_zero⟩

/-! ### Instructions that write flags alone -/

/-- The form of R178 to R180: a carrier without a destination keeps every register; under `[A]` its Z and N are those of
the ALU result, so any `P` these two flags give holds of the flags left. -/
theorem exec_carrier_without_dest {h : Carrier} (hd : carrierDest h = none) (s : State) (sro : Override) (sh : Shift)
    {P : ShiftResult → SR → Prop}
    (hP : ∀ (r : ShiftResult) (f : SR), (f.z = true ↔ alu (carrierOp h) r.res (carrierSecond s h) = 0) →
      f.n = (alu (carrierOp h) r.res (carrierSecond s h)).getLsbD 15 → P r f) :
    (∀ r, Shifted s (carrierFirst h) sh r → ∃ t, exec (h.instr sro sh) s = .next t ∧ RegsKept s t ∧
      FlagsWritten s t sro (carrierOp h) r (carrierSecond s h) ∧ FrameKept s t ∧ t.pc = s.pc + 1 ∧
      (sro = .a → P r t.sr)) ∧
    ∀ f, ShiftFaults s sh f → exec (h.instr sro sh) s = .fault f := by
  refine ⟨fun r hr => ?_, fun f hf => exec_carrier_of_shiftFaults hf h sro⟩
  obtain ⟨t, ht, -, hkept, hflags, hframe, hpc⟩ := exec_carrier_effect hr sro
  refine ⟨t, ht, hkept hd, hflags, hframe, hpc, fun ha => ?_⟩
  subst ha
  obtain ⟨hz, hn, -⟩ := hflags
  exact hP r t.sr hz hn

/-- Bit 15 of a word is set from 2^15 on. -/
theorem getLsbD_fifteen_iff (w : Word) : w.getLsbD 15 = true ↔ 32768 ≤ w.toNat := by
  rw [← BitVec.msb_eq_getLsbD_last w, BitVec.msb_eq_decide, decide_eq_true_iff]

/-- Z and N of a difference: equal operands, and bit 15 of the difference modulo 2^16 (R178, R179). -/
theorem compare_flags (sv b : Word) (f : SR) (hz : f.z = true ↔ sv - b = 0) (hn : f.n = (sv - b).getLsbD 15) :
    (f.z = true ↔ sv = b) ∧ (f.n = true ↔ 32768 ≤ (sv.toNat + 65536 - b.toNat) % 65536) := by
  have hb := b.isLt
  refine ⟨hz.trans sub_eq_zero, ?_⟩
  rw [hn, getLsbD_fifteen_iff, BitVec.toNat_sub]
  omega

/-- Settles O23, by the flags of a difference. -/
theorem cmpiComparesImmediate : Obligations.CmpiComparesImmediate := fun s sro rd imm sh =>
  exec_carrier_without_dest (h := .cmpi rd imm) rfl s sro sh fun r => compare_flags r.res imm

/-- Settles O24, by the flags of a difference. -/
theorem cmprComparesRegister : Obligations.CmprComparesRegister := fun s sro ra rb sh =>
  exec_carrier_without_dest (h := .cmpr ra rb) rfl s sro sh fun r => compare_flags r.res (s.getReg rb)

/-- A word is zero when none of its bits is set. -/
theorem word_eq_zero_iff (w : Word) : w = 0 ↔ ∀ i, i < 16 → w.getLsbD i = false :=
  ⟨fun h i _ => h ▸ BitVec.getLsbD_zero, fun h => BitVec.eq_of_getLsbD_eq fun i hi => by simpa using h i hi⟩

/-- Z and N of an AND: no bit set in both operands, and bit 15 set in both (R180). -/
theorem test_flags (sv b : Word) (f : SR) (hz : f.z = true ↔ sv &&& b = 0) (hn : f.n = (sv &&& b).getLsbD 15) :
    (f.z = true ↔ ∀ i, i < 16 → (sv.getLsbD i && b.getLsbD i) = false) ∧
      f.n = (sv.getLsbD 15 && b.getLsbD 15) := by
  simp only [word_eq_zero_iff, BitVec.getLsbD_and] at hz hn
  exact ⟨hz, hn⟩

/-- Settles O25, by the flags of an AND. -/
theorem tsarTestsRegister : Obligations.TsarTestsRegister := fun s sro ra rb sh =>
  exec_carrier_without_dest (h := .tsar ra rb) rfl s sro sh fun r => test_flags r.res (s.getReg rb)

/-! ### Carry and overflow of an add -/

/-- The default overflow of an add says that the signed sum leaves the range of a word (K3). -/
theorem flagValue_standardAdd_v (x b : Word) (c v : Bool) :
    flagValue .add x b c v CVRule.standardAdd.v = true ↔
      x.toInt + b.toInt < -32768 ∨ 32767 < x.toInt + b.toInt := by
  have hv : flagValue .add x b c v CVRule.standardAdd.v = x.saddOverflow b := by
    rw [BitVec.saddOverflow_eq]
    simp [CVRule.standardAdd, flagValue, alu, BitVec.msb_eq_getLsbD_last, bne]
  rw [hv, BitVec.saddOverflow, Bool.or_eq_true, decide_eq_true_iff, decide_eq_true_iff]
  omega

/-- Under `[A]` and the default `AluCV(ADD)` a carrier that adds sets C and V from the sum (R182, K3). -/
theorem exec_carrier_add_carry_overflow {s : State} {h : Carrier} {sh : Shift} {r : ShiftResult}
    (hop : carrierOp h = .add) (hcv : s.params.aluCV.add = some .standardAdd)
    (hr : Shifted s (carrierFirst h) sh r) :
    ∃ t, exec (h.instr .a sh) s = .next t ∧
      (t.sr.c = true ↔ 65536 ≤ r.res.toNat + (carrierSecond s h).toNat) ∧
      (t.sr.v = true ↔ r.res.toInt + (carrierSecond s h).toInt < -32768 ∨
        32767 < r.res.toInt + (carrierSecond s h).toInt) := by
  obtain ⟨t, ht, -, -, ⟨-, -, hflags⟩, -⟩ := exec_carrier_effect hr .a
  rw [hop, aluCV_supplied (op := .add) hcv] at hflags
  obtain ⟨hc, hv⟩ := Prod.mk.inj hflags
  refine ⟨t, ht, ?carry, ?overflow⟩
  case carry =>
    rw [hc]
    exact decide_eq_true_iff
  case overflow => rw [hv, flagValue_standardAdd_v]

/-- Settles O31: both instructions are carriers that add. -/
theorem addCarryAndOverflow : Obligations.AddCarryAndOverflow := fun _ rd ra rb imm _ hcv =>
  ⟨fun _ hr => exec_carrier_add_carry_overflow (h := .addi rd imm) rfl hcv hr,
    fun _ hr => exec_carrier_add_carry_overflow (h := .addr rd ra rb) rfl hcv hr⟩

end Sys2Proof.Machine

/-! PROOF. LOAD and BRAN (44_load_branch.md R200 to R206): one effect shared by the three LOAD forms, the indirect one
with `a` stepped on besides, and a branch by the answer of its condition. -/

namespace Sys2Proof.Machine

/-! ### The effect of a LOAD -/

theorem State.loadFlags_of_kept {s : State} (h : s.params.loadFlags = .kept) (m : LoadModifier) : s.loadFlags m = s := by
  cases m <;> simp [State.loadFlags, h]

theorem State.loadFlags_of_drawn {s : State} (h : s.params.loadFlags = .drawn) :
    s.loadFlags .plain = (s.setSr ⟨s.drawn 0, s.drawn 1, s.drawn 2, s.drawn 3⟩).drawMany 4 := by
  simp [State.loadFlags, h]

/-- The flag write after a LOAD's register write sees the flags, parameters and draws of the state before it (R204). -/
theorem State.load_flagsWritten (s : State) (m : LoadModifier) (rd : Reg) (x : Word) :
    LoadFlagsWritten s ((s.setReg rd x).loadFlags m).advance m := by
  cases m with
  | n => rfl
  | plain =>
    refine ⟨fun hkept => ?kept, fun hdrawn => ?drawn⟩
    case kept => rw [State.loadFlags_of_kept (s := s.setReg rd x) hkept]; rfl
    case drawn => rw [State.loadFlags_of_drawn (s := s.setReg rd x) hdrawn]; rfl

/-- What the three LOAD forms share, for the value `x` that arrives: `rd` holds it, the flags go by `loadFlags`, and
nothing else but `pc` is touched (R200, R201, R203, R204). -/
theorem State.load_effect (s : State) (m : LoadModifier) (rd : Reg) (x : Word) :
    let t := ((s.setReg rd x).loadFlags m).advance
    t.getReg rd = x ∧ OthersKept s t rd ∧ LoadFlagsWritten s t m ∧ FrameKept s t ∧ t.pc = s.pc + 1 := by
  have hadv := s.load_advancedFrom m rd x
  refine ⟨by simp, fun q hq => hadv.regs q ?other, s.load_flagsWritten m rd x,
    ⟨hadv.a, fun addr => by rw [hadv.mem], hadv.prog, hadv.params⟩, hadv.pc⟩
  case other => simpa using hq.symm

/-- Settles O37: the value that arrives is the other register's. -/
theorem loadRegCopies : Obligations.LoadRegCopies := fun s m rd rs =>
  ⟨_, rfl, s.load_effect m rd (s.getReg rs)⟩

/-- Settles O38: the value that arrives is the constant. -/
theorem loadImmWritesConstant : Obligations.LoadImmWritesConstant := fun s m rd imm =>
  ⟨_, rfl, s.load_effect m rd imm⟩

/-- Settles O39: the register write and the step of `a` commute, so this is the shared effect of a LOAD on the state
with `a` stepped on, the value having been read before. -/
theorem loadIndReadsAndIncrements : Obligations.LoadIndReadsAndIncrements := by
  intro s m rd off
  have heff := (s.setA (s.a + s.params.postIncStep)).load_effect m rd (BitVec.ofNat 16 (s.memRead (s.a + off)))
  obtain ⟨hval, hothers, hflags, ⟨ha, hmem, hprog, hparams⟩, hpc⟩ := heff
  have hcell := (congrArg BitVec.toNat hval).trans (BitVec.toNat_ofNat _ 16)
  exact ⟨_, rfl, hcell, fun hlt => hcell.trans (Nat.mod_eq_of_lt hlt), ha, hothers, hmem, hprog, hparams, hflags, hpc⟩

/-- Settles O40: the statement of each form holds its flag write, of which these are the three cases. -/
theorem loadFlagsByModifier : Obligations.LoadFlagsByModifier := by
  intro s rd rs imm off i hi
  have hload : ∀ m, ∃ t, exec (i m) s = .next t ∧ LoadFlagsWritten s t m := by
    intro m
    rcases hi with rfl | rfl | rfl
    · obtain ⟨t, ht, -, -, hflags, -⟩ := loadRegCopies s m rd rs
      exact ⟨t, ht, hflags⟩
    · obtain ⟨t, ht, -, -, hflags, -⟩ := loadImmWritesConstant s m rd imm
      exact ⟨t, ht, hflags⟩
    · obtain ⟨t, ht, -, -, -, -, -, -, -, hflags, -⟩ := loadIndReadsAndIncrements s m rd off
      exact ⟨t, ht, hflags⟩
  obtain ⟨t, ht, hkept, hdrawn⟩ := hload .plain
  exact ⟨hload .n, fun h => ⟨t, ht, hkept h⟩, fun h => ⟨t, ht, hdrawn h⟩⟩

/-! ### Branches -/

/-- A branch whose condition has an answer goes where the answer says (R206). -/
theorem exec_bran_of_condHolds {s : State} {c : Cond} {b : Bool} (h : s.condHolds c = some b) (k : Nat) :
    exec (.bran c k) s = .next { s with pc := if b = true then k else s.pc + 1 } := by
  cases b with
  | true => exact State.whenCond_of_holds h _
  | false => exact State.whenCond_of_fails h _

/-- A branch whose condition has no answer is refused (R205). -/
theorem exec_bran_of_condHolds_none {s : State} {c : Cond} (h : s.condHolds c = none) (k : Nat) :
    exec (.bran c k) s = .refused (.illFormed .conditionGeNotSupplied) := by
  change s.whenCond c _ = _
  rw [State.whenCond, h]

/-- `>=` is answered by its truth table where that and `AluCV(CMP)` are supplied (R205, log 13). -/
theorem State.condHolds_ge {s : State} {t : BitVec 16} {r : CVRule} (ht : s.params.condGE = some t)
    (hr : s.params.aluCV.cmp = some r) : s.condHolds .ge = some (s.sr.lookup t) := by
  rw [State.condHolds, geTest_eq_some.2 ⟨ht, by rw [hr]; rfl⟩, Option.map_some]

/-- `>=` has no answer where one of the two is missing (R205). -/
theorem State.condHolds_ge_none {s : State} (h : s.params.condGE = none ∨ s.params.aluCV.cmp = none) :
    s.condHolds .ge = none := by
  rw [State.condHolds, geTest_eq_none.2 h, Option.map_none]

/-- Settles O41, by the answer of each condition. -/
theorem branGoesWhereConditionSays : Obligations.BranGoesWhereConditionSays := by
  refine fun s k => ⟨exec_bran_of_condHolds (c := .always) rfl k, exec_bran_of_condHolds (c := .eq) rfl k, ?ne,
    exec_bran_of_condHolds (c := .ns) rfl k, fun t r ht hr => exec_bran_of_condHolds (State.condHolds_ge ht hr) k,
    fun h => exec_bran_of_condHolds_none (State.condHolds_ge_none h) k⟩
  case ne => simpa using exec_bran_of_condHolds (s := s) (c := .ne) rfl k

end Sys2Proof.Machine

/-! PROOF. What is refused and what stops (60_exceptions.md R221, R222): the program check of each kind of statement,
the stops of an admitted one, and the check of what the assembler accepts. -/

namespace Sys2Proof.Machine

/-! ### The program check -/

/-- The first reason against a carrier under a condition: its condition, its immediate, its count register (R221,
log 19). -/
theorem illFormed?_carrierUnder (p : Params) (h : Carrier) (c : Cond) (sro : Override) (sh : Shift) :
    (carrierUnder c sro sh h).illFormed? p = (checkNonBranch c).or ((checkCarrier h).or (checkShift p sh)) := by
  cases h <;> rfl

theorem illFormed?_instr (p : Params) (h : Carrier) (sro : Override) (sh : Shift) :
    (h.instr sro sh).illFormed? p = (checkCarrier h).or (checkShift p sh) := by
  rw [h.instr_eq_carrierUnder, illFormed?_carrierUnder]
  rfl

/-- A row of ST or SO and SHFT are checked as the instruction whose words they share (R75, R100). -/
theorem illFormed?_core (p : Params) (i : Instr) : i.core.illFormed? p = i.illFormed? p := by
  cases i
  case stNone | stLsl | stLsr | stAsl | stAsr | stRtl | stRtr | stReserved | soLiteral | soRegister =>
    exact illFormed?_instr p _ _ _
  all_goals rfl

theorem checkNonBranch_of_ne_always {c : Cond} (h : c ≠ .always) : checkNonBranch c = some .conditionOnNonBranch := by
  cases c with
  | always => exact absurd rfl h
  | eq | ne | ns | ge => rfl

theorem checkImm_eq_none_iff {imm : Word} : checkImm imm = none ↔ imm.toNat ≤ 127 := by
  simp [checkImm]

/-- A carrier is checked by its immediate, if it has one (R66). -/
theorem checkCarrier_eq_bind (h : Carrier) : checkCarrier h = (carrierImm h).bind checkImm := by
  cases h <;> rfl

/-- A count register is asked for by SO = 1 under the six types that shift (R108, R222). -/
theorem checkShift_register (p : Params) {st : ShiftType} (h0 : st ≠ .noShift) (hr : st ≠ .reserved) (sc : BitVec 4) :
    checkShift p ⟨st, .register, sc⟩ =
      if (regOfNumber p.regIndex sc).isSome then none else some .countRegisterNotAdmitted := by
  cases st with
  | noShift => exact absurd rfl h0
  | reserved => exact absurd rfl hr
  | lsl | lsr | asl | asr | rtl | rtr => rfl

theorem checkShift_literal (p : Params) (st : ShiftType) (sc : BitVec 4) : checkShift p ⟨st, .literal, sc⟩ = none := by
  cases st <;> rfl

/-- `>=` passes the check exactly when its test is supplied (R205). -/
theorem checkBranchCond_ge_eq_none_iff (p : Params) :
    checkBranchCond p .ge = none ↔ ¬ (p.condGE = none ∨ p.aluCV.cmp = none) := by
  rw [← geTest_eq_none]
  cases h : p.geTest <;> simp [checkBranchCond, h]

/-! ### What a step refuses -/

/-- A statement with a reason against it is refused for that reason (R221). -/
theorem step_of_illFormed {s : State} {i : Instr} {why : IllFormed} (hi : s.prog[s.pc]? = some i)
    (hw : i.illFormed? s.params = some why) : step s = .refused (.illFormed why) := by
  simpa [hi, hw] using step_cases s

/-- Settles O43: each clause names the first reason of the check. -/
theorem stepRefusesWhatTheCheckRefuses : Obligations.StepRefusesWhatTheCheckRefuses := by
  refine ⟨fun _ _ _ => step_of_illFormed, fun s h c sro sh hc hi => step_of_illFormed hi ?condition,
    fun s h sro sh imm himm hbig hi => step_of_illFormed hi ?immediate,
    fun s h sro st sc himm h0 hr hsc hi => step_of_illFormed hi ?countRegister,
    fun s m rd off hoff hi => step_of_illFormed hi (if_neg hoff), fun s k hge hi => step_of_illFormed hi ?ge⟩
  case condition => rw [illFormed?_carrierUnder, checkNonBranch_of_ne_always hc, Option.some_or]
  case immediate =>
    have hcheck : checkImm imm = some .immediateOutOfRange := if_neg (Nat.not_le.2 hbig)
    rw [illFormed?_instr, checkCarrier_eq_bind, himm, Option.bind_some, hcheck, Option.some_or]
  case countRegister =>
    have hcheck : checkCarrier h = none := by
      rw [checkCarrier_eq_bind, Option.bind_eq_none_iff]
      exact fun imm hh => checkImm_eq_none_iff.2 (himm imm hh)
    rw [illFormed?_instr, hcheck, Option.none_or, checkShift_register _ h0 hr, hsc]
    rfl
  case ge =>
    change checkBranchCond s.params .ge = _
    rw [checkBranchCond, geTest_eq_none.2 hge]
    rfl

/-! ### What faults -/

/-- Settles O14: the shift stage faults, and every one of these instructions runs it. -/
theorem countOutOfRangeFaults : Obligations.CountOutOfRangeFaults := by
  intro s h sro sc rc st hp hrc hw
  have hcount : ∀ st, st ≠ .noShift → st ≠ .reserved →
      ShiftFaults s ⟨st, .register, sc⟩ (.shiftCountOutOfRange (s.getReg rc)) :=
    fun st h0 hr => .inr ⟨h0, hr, rfl, hp, rc, hrc, hw, rfl⟩
  have hrow : ∀ st, st ≠ .noShift → st ≠ .reserved →
      carrierStep h sro ⟨st, .register, sc⟩ s = .fault (.shiftCountOutOfRange (s.getReg rc)) :=
    fun st h0 hr => carrierStep_of_shiftFaults (hcount st h0 hr) h sro
  refine ⟨fun h0 hr => ⟨exec_carrier_of_shiftFaults (hcount st h0 hr) h sro, hrow st h0 hr, fun rd =>
      State.aluStep_of_shiftFaults (hcount st h0 hr) .orr (some rd) rd (.imm 0) .s⟩,
    hrow .lsl ?_ ?_, hrow .lsr ?_ ?_, hrow .asl ?_ ?_, hrow .asr ?_ ?_, hrow .rtl ?_ ?_, hrow .rtr ?_ ?_,
    exec_carrier_of_shiftFaults (.inl ⟨rfl, rfl⟩) h sro⟩ <;> decide

/-! ### The stops of an admitted statement -/

/-- A register count is delivered, or faults under the default `countFromReg` (R107). -/
theorem countOf_or_fault (p : CountPolicy) (w : Word) : (∃ n, CountOf p w n) ∨ (p = .fault ∧ 16 ≤ w.toNat) := by
  rcases Nat.lt_or_ge 15 w.toNat with hw | hw
  · cases p with
    | fault => exact .inr ⟨rfl, hw⟩
    | lowFour => exact .inl ⟨_, .inr (.inl ⟨hw, rfl, rfl⟩)⟩
    | clamp => exact .inl ⟨_, .inr (.inr (.inl ⟨hw, rfl, rfl⟩))⟩
    | full => exact .inl ⟨_, .inr (.inr (.inr ⟨hw, rfl, rfl⟩))⟩
  · exact .inl ⟨_, .inl ⟨hw, rfl⟩⟩

/-- A count is enough for a shift type other than the reserved one (R129). -/
theorem exists_shifted_of_countIs {s : State} {sh : Shift} {n : Nat} (hr : sh.st ≠ .reserved) (hn : CountIs s sh n)
    (first : Reg) : ∃ r, Shifted s first sh r := by
  obtain ⟨r, hshift⟩ := shift_isSome (s.getReg first) n s.sr.c hr
  exact ⟨r, n, hn, hshift⟩

/-- An admitted shift delivers or faults; it is never refused (R109, R221). -/
theorem shifted_or_shiftFaults {s : State} {sh : Shift} (h : checkShift s.params sh = none) (first : Reg) :
    (∃ r, Shifted s first sh r) ∨ ∃ f, ShiftFaults s sh f := by
  obtain ⟨st, so, sc⟩ := sh
  by_cases hr : st = .reserved
  · exact .inr ⟨_, .inl ⟨hr, rfl⟩⟩
  by_cases h0 : st = .noShift
  · exact .inl (exists_shifted_of_countIs hr (.inl ⟨h0, rfl⟩) first)
  cases so with
  | literal => exact .inl (exists_shifted_of_countIs hr (countIs_literal s h0 sc) first)
  | register =>
    obtain ⟨rc, hrc⟩ : ∃ rc, regOfNumber s.params.regIndex sc = some rc := by
      simpa [checkShift_register _ h0 hr, Option.isSome_iff_exists] using h
    rcases countOf_or_fault s.params.countFromReg (s.getReg rc) with ⟨n, hn⟩ | ⟨hp, hw⟩
    · exact .inl (exists_shifted_of_countIs hr (.inr (.inr ⟨h0, rfl, rc, hrc, hn⟩)) first)
    · exact .inr ⟨_, .inr ⟨h0, hr, rfl, hp, rc, hrc, hw, rfl⟩⟩

/-- A row of ST or SO and SHFT run as the instruction whose words they share (R75, R100). -/
theorem exec_core (i : Instr) (s : State) : exec i.core s = exec i s := by
  cases i
  case stNone | stLsl | stLsr | stAsl | stAsr | stRtl | stRtr | stReserved | soLiteral | soRegister =>
    exact exec_carrier_instr _ _ _ s
  all_goals rfl

/-- A branch condition that passes the check has an answer (R205). -/
theorem State.condHolds_of_checked {s : State} {c : Cond} (h : checkBranchCond s.params c = none) :
    ∃ b, s.condHolds c = some b := by
  cases c with
  | ge =>
    obtain ⟨t, ht⟩ : ∃ t, s.params.geTest = some t :=
      Option.ne_none_iff_exists'.1 fun hn => (checkBranchCond_ge_eq_none_iff s.params).1 h (geTest_eq_none.1 hn)
    exact ⟨s.sr.lookup t, by simp [State.condHolds, ht]⟩
  | always | eq | ne | ns => exact ⟨_, rfl⟩

/-- An admitted instruction with a word of its own completes, or faults as its shift stage does (R221). -/
theorem exec_of_admitted_of_coreInstr {s : State} {i : Instr} (hi : CoreInstr i) (h : i.illFormed? s.params = none) :
    (∃ t, exec i s = .next t) ∨ ∃ sh f, shiftOfInstr i = some sh ∧ ShiftFaults s sh f ∧ exec i s = .fault f := by
  cases hi with
  | loadReg | loadImm | loadInd => exact .inl ⟨_, rfl⟩
  | bran c k =>
    obtain ⟨b, hb⟩ := State.condHolds_of_checked h
    exact .inl ⟨_, exec_bran_of_condHolds hb k⟩
  | carrier c sro sh k =>
    rw [illFormed?_carrierUnder, Option.or_eq_none_iff, Option.or_eq_none_iff] at h
    obtain ⟨hc, -, hsh⟩ := h
    obtain rfl : c = .always := by_contra fun hne => by simp [checkNonBranch_of_ne_always hne] at hc
    rw [← k.instr_eq_carrierUnder]
    rcases shifted_or_shiftFaults hsh (carrierFirst k) with ⟨r, hr⟩ | ⟨f, hf⟩
    · obtain ⟨t, ht, -⟩ := exec_carrier_effect hr sro
      exact .inl ⟨t, ht⟩
    · exact .inr ⟨sh, f, by cases k <;> rfl, hf, exec_carrier_of_shiftFaults hf k sro⟩

/-- The same of every instruction, through the one whose words it shares. -/
theorem exec_of_admitted {s : State} {i : Instr} (h : i.illFormed? s.params = none) :
    (∃ t, exec i s = .next t) ∨ ∃ sh f, shiftOfInstr i = some sh ∧ ShiftFaults s sh f ∧ exec i s = .fault f := by
  obtain ⟨-, -, hshift, -⟩ := coreForm i
  have hcore := exec_of_admitted_of_coreInstr i.coreInstr_core ((illFormed?_core s.params i).trans h)
  rwa [exec_core, hshift] at hcore

/-- Every statement of a checked program is admitted (R221). -/
theorem illFormed?_of_programChecked {p : Params} {prog : List Instr} {i : Instr} (h : programChecked p prog = true)
    (hi : i ∈ prog) : i.illFormed? p = none := by
  have hb := List.all_eq_true.1 h i hi
  exact Option.isNone_iff_eq_none.1 (Bool.and_eq_true_iff.1 hb).1

/-- A step from inside a checked program completes, or faults in the shift stage of a statement of it (R221). -/
theorem State.Inv.step_next_or_fault {s : State} (hs : s.Inv) (hpc : s.pc < s.prog.length) :
    (∃ t, step s = .next t) ∨
      ∃ i ∈ s.prog, ∃ sh f, shiftOfInstr i = some sh ∧ ShiftFaults s sh f ∧ step s = .fault f := by
  have hi : s.prog[s.pc] ∈ s.prog := List.getElem_mem hpc
  have hadm := illFormed?_of_programChecked hs.checked hi
  rw [step_of_admitted (List.getElem?_eq_getElem hpc) hadm]
  exact (exec_of_admitted hadm).imp_right fun hstop => ⟨_, hi, hstop⟩

/-- Settles O50: the shift stage has no other fault than the two. -/
theorem checkedProgramIsNeverRefused : Obligations.CheckedProgramIsNeverRefused := by
  intro s hs hpc
  rcases hs.step_next_or_fault hpc with hnext | ⟨i, -, sh, f, -, hf, hstep⟩
  · exact .inl hnext
  · rcases hf with ⟨-, rfl⟩ | ⟨-, -, -, -, rc, -, hw, rfl⟩
    · exact .inr (.inl hstep)
    · exact .inr (.inr ⟨_, hw, hstep⟩)

/-- Settles O51: neither fault of the shift stage is left, and a step keeps the invariant. -/
theorem checkedProgramDoesNotStopEarly : Obligations.CheckedProgramDoesNotStopEarly := by
  intro s hs hpc hpolicy htypes
  rcases hs.step_next_or_fault hpc with ⟨t, ht⟩ | ⟨i, hi, sh, f, hsh, hf, -⟩
  · exact ⟨t, ht, stepKeepsInvariant s t hs ht⟩
  · rcases hf with ⟨hres, -⟩ | ⟨-, -, -, hfault, -⟩
    · exact absurd hres (htypes i hi sh hsh)
    · exact absurd hfault hpolicy

/-! ### What the assembler delivers -/

/-- The number of a register is the number of an admitted one (R20, R65). -/
theorem isSome_regOfNumber_get (ix : PerReg (BitVec 4)) (r : Reg) : (regOfNumber ix (ix.get r)).isSome = true := by
  have hr : r ∈ Reg.all := by cases r <;> decide
  exact List.find?_isSome.2 ⟨r, hr, beq_self_eq_true _⟩

/-- A sequence of two readings is accepted when both are. -/
theorem bind_eq_ok {α β : Type} {x : Except AsmError α} {f : α → Except AsmError β} {b : β} :
    x >>= f = .ok b ↔ ∃ a, x = .ok a ∧ f a = .ok b := by
  cases x <;> simp [bind, Except.bind]

/-- A line goes on only past a refusal that does not apply. -/
theorem guard_eq_ok {α : Type} {c : Prop} [Decidable c] {e : AsmError} {f : Unit → Except AsmError α} {a : α} :
    (if c then (throw e : Except AsmError Unit) >>= f else f ()) = .ok a ↔ ¬ c ∧ f () = .ok a := by
  by_cases hc : c <;> simp [hc, bind_eq_ok, throw, throwThe, MonadExceptOf.throw]

section Assembled

variable {p : Params} {l : AsmLine} {i : Instr}

/-- A postamble that is accepted passes the check: its count is literal, or in a register that has a name (R70). -/
theorem checkShift_of_shiftOfOperand {o : AsmOperand} {sh : Shift} (h : shiftOfOperand p.regIndex o = .ok sh) :
    checkShift p sh = none := by
  cases o with
  | shiftLit ty n =>
    obtain ⟨st, -, h⟩ := bind_eq_ok.1 h
    split at h
    · obtain rfl := Except.ok.inj h
      exact checkShift_literal p st _
    · exact nomatch h
  | shiftReg ty reg =>
    obtain ⟨st, -, h⟩ := bind_eq_ok.1 h
    obtain ⟨r, -, h⟩ := bind_eq_ok.1 h
    obtain rfl := Except.ok.inj h
    cases st with
    | noShift | reserved => rfl
    | lsl | lsr | asl | asr | rtl | rtr => exact if_pos (isSome_regOfNumber_get p.regIndex r)
  | name | imm | postInc => exact nomatch h

/-- The suffix of an accepted line passes the check; without a postamble it shifts nothing (R67). -/
theorem checkShift_of_aluSuffix {o : Override} {sh : Shift} {ops : List AsmOperand}
    (h : aluSuffix p.regIndex l = .ok (o, sh, ops)) : checkShift p sh = none := by
  unfold aluSuffix at h
  obtain ⟨-, h⟩ := guard_eq_ok.1 h
  obtain ⟨_, -, h⟩ := bind_eq_ok.1 h
  obtain ⟨_, hsh, h⟩ := bind_eq_ok.1 h
  cases h
  cases hpost : (splitPostamble l.operands).2 with
  | none => rw [hpost] at hsh; cases hsh; rfl
  | some post => rw [hpost] at hsh; exact checkShift_of_shiftOfOperand hsh

/-- A short immediate that is accepted passes the check (R66). -/
theorem checkImm_of_shortImmOf {n : Nat} {imm : Word} (h : shortImmOf n = .ok imm) : checkImm imm = none := by
  unfold shortImmOf at h
  split at h
  next hn =>
    obtain rfl := Except.ok.inj h
    rw [checkImm_eq_none_iff, BitVec.toNat_ofNat]
    omega
  next => exact nomatch h

theorem assembleImm_admitted {mk : Cond → Override → Reg → Word → Shift → Instr}
    (hmk : ∀ o rd imm sh, (mk .always o rd imm sh).illFormed? p = checkShortImm p .always imm sh)
    (h : assembleImm mk p.regIndex l = .ok i) : i.illFormed? p = none := by
  obtain ⟨⟨o, sh, ops⟩, hsuffix, h⟩ := bind_eq_ok.1 h
  dsimp only at h
  split at h
  · obtain ⟨rd, -, h⟩ := bind_eq_ok.1 h
    obtain ⟨imm, himm, h⟩ := bind_eq_ok.1 h
    obtain rfl := Except.ok.inj h
    simp [hmk, checkShortImm, checkNonBranch, checkImm_of_shortImmOf himm, checkShift_of_aluSuffix hsuffix]
  · exact nomatch h

theorem assembleReg_admitted {mk : Cond → Override → Reg → Reg → Reg → Shift → Instr}
    (hmk : ∀ o rd ra rb sh, (mk .always o rd ra rb sh).illFormed? p = checkRegister p .always sh)
    (h : assembleReg mk p.regIndex l = .ok i) : i.illFormed? p = none := by
  obtain ⟨⟨o, sh, ops⟩, hsuffix, h⟩ := bind_eq_ok.1 h
  have hshift : checkRegister p .always sh = none := checkShift_of_aluSuffix hsuffix
  dsimp only at h
  split at h
  · obtain ⟨rd, -, h⟩ := bind_eq_ok.1 h
    obtain ⟨ra, -, h⟩ := bind_eq_ok.1 h
    obtain ⟨rb, -, h⟩ := bind_eq_ok.1 h
    obtain rfl := Except.ok.inj h
    exact (hmk ..).trans hshift
  · obtain ⟨rd, -, h⟩ := bind_eq_ok.1 h
    obtain ⟨rb, -, h⟩ := bind_eq_ok.1 h
    obtain rfl := Except.ok.inj h
    exact (hmk ..).trans hshift
  · exact nomatch h

theorem assembleCompare_admitted {mk : Cond → Override → Reg → Reg → Shift → Instr}
    (hmk : ∀ o ra rb sh, (mk .always o ra rb sh).illFormed? p = checkRegister p .always sh)
    (h : assembleCompare mk p.regIndex l = .ok i) : i.illFormed? p = none := by
  obtain ⟨⟨o, sh, ops⟩, hsuffix, h⟩ := bind_eq_ok.1 h
  have hshift : checkRegister p .always sh = none := checkShift_of_aluSuffix hsuffix
  dsimp only at h
  split at h
  · obtain ⟨ra, -, h⟩ := bind_eq_ok.1 h
    obtain ⟨rb, -, h⟩ := bind_eq_ok.1 h
    obtain rfl := Except.ok.inj h
    exact (hmk ..).trans hshift
  all_goals exact nomatch h

theorem assembleCmpi_admitted (h : assembleCmpi p.regIndex l = .ok i) : i.illFormed? p = none := by
  unfold assembleCmpi at h
  split at h
  · exact assembleCompare_admitted (fun _ _ _ _ => rfl) h
  · exact assembleImm_admitted (fun _ _ _ _ => rfl) h

theorem assembleShft_admitted (h : assembleShft p.regIndex l = .ok i) : i.illFormed? p = none := by
  unfold assembleShft at h
  obtain ⟨-, h⟩ := guard_eq_ok.1 h
  obtain ⟨-, h⟩ := guard_eq_ok.1 h
  split at h
  · obtain ⟨sh, hsh, h⟩ := bind_eq_ok.1 h
    obtain ⟨rd, -, h⟩ := bind_eq_ok.1 h
    obtain rfl := Except.ok.inj h
    exact checkShift_of_shiftOfOperand hsh
  · exact nomatch h

/-- A LOAD is accepted with the offset 0 only (R203). -/
theorem assembleLoad_admitted (h : assembleLoad l = .ok i) : i.illFormed? p = none := by
  unfold assembleLoad at h
  obtain ⟨-, h⟩ := guard_eq_ok.1 h
  obtain ⟨m, -, h⟩ := bind_eq_ok.1 h
  obtain ⟨-, h⟩ := guard_eq_ok.1 h
  split at h
  · obtain ⟨rd, -, h⟩ := bind_eq_ok.1 h
    obtain ⟨rs, -, h⟩ := bind_eq_ok.1 h
    exact Except.ok.inj h ▸ rfl
  · obtain ⟨rd, -, h⟩ := bind_eq_ok.1 h
    split at h
    · exact Except.ok.inj h ▸ rfl
    · exact nomatch h
  · obtain ⟨rd, -, h⟩ := bind_eq_ok.1 h
    split at h
    · split at h
      · exact Except.ok.inj h ▸ rfl
      · exact nomatch h
    · exact nomatch h
  · exact nomatch h

/-- What a BRAN line delivers is a branch (R206). -/
theorem exists_bran_of_assembleBran {labels : List (List Char × Nat)} (h : assembleBran labels l = .ok i) :
    ∃ c k, i = .bran c k := by
  unfold assembleBran at h
  obtain ⟨-, h⟩ := guard_eq_ok.1 h
  obtain ⟨-, h⟩ := guard_eq_ok.1 h
  obtain ⟨c, -, h⟩ := bind_eq_ok.1 h
  split at h
  · split at h
    · exact ⟨c, _, (Except.ok.inj h).symm⟩
    · exact nomatch h
  · exact nomatch h

/-- A line that is accepted is admitted, or a branch (R221). -/
theorem assembleLine_admitted {labels : List (List Char × Nat)} (h : assembleLine p.regIndex labels l = .ok i) :
    i.illFormed? p = none ∨ ∃ c k, i = .bran c k := by
  unfold assembleLine at h
  split at h
  case h_12 => exact .inr (exists_bran_of_assembleBran h)
  case h_14 => exact nomatch h
  all_goals left
  -- ADDI, ORRI, ANDI
  case h_1 | h_3 | h_5 => exact assembleImm_admitted (fun _ _ _ _ => rfl) h
  -- ADDR, ORRR, ANDR, XORR
  case h_2 | h_4 | h_6 | h_7 => exact assembleReg_admitted (fun _ _ _ _ _ => rfl) h
  case h_8 => exact assembleCmpi_admitted h
  -- CMPR, TSAR
  case h_9 | h_10 => exact assembleCompare_admitted (fun _ _ _ _ => rfl) h
  case h_11 => exact assembleLoad_admitted h
  case h_13 => exact assembleShft_admitted h

end Assembled

/-- Settles O59: a line is admitted whatever its mnemonic, a branch unless its condition is an unsupplied `>=`. -/
theorem assembledIsAdmitted : Obligations.AssembledIsAdmitted := by
  intro p labels text i h
  unfold assemble at h
  split at h
  · exact nomatch h
  split at h
  · rcases assembleLine_admitted h with hadm | ⟨c, k, rfl⟩
    · exact .inl hadm
    · cases c with
      | ge =>
        by_cases hge : p.condGE = none ∨ p.aluCV.cmp = none
        · exact .inr ⟨⟨k, rfl⟩, hge⟩
        · exact .inl ((checkBranchCond_ge_eq_none_iff p).2 hge)
      | always | eq | ne | ns => exact .inl rfl
  · exact nomatch h

end Sys2Proof.Machine

/-! PROOF. The end of the program (70_reset_and_hazards.md R243): where the program has no statement at `pc`, a step
refuses for the reason the fetch gives; the counterpart of `step_of_admitted` and `step_of_illFormed`. -/

namespace Sys2Proof.Machine

/-- At the end of the program there is nothing to fetch (R243). -/
theorem State.fetch_of_pc_eq {s : State} (h : s.pc = s.prog.length) : s.fetch = .error .runEnded := by
  have hnone : s.prog[s.pc]? = none := List.getElem?_eq_none h.ge
  simp only [State.fetch, hnone, if_pos h]

/-- Beyond the end of the program there is nothing to fetch either, for another reason (log 20). -/
theorem State.fetch_of_length_lt_pc {s : State} (h : s.prog.length < s.pc) : s.fetch = .error .pcPastEnd := by
  have hnone : s.prog[s.pc]? = none := List.getElem?_eq_none h.le
  simp only [State.fetch, hnone, if_neg h.ne']

/-- A step refuses for the reason of a failed fetch. -/
theorem step_of_fetch_error {s : State} {r : Refusal} (h : s.fetch = .error r) : step s = .refused r := by
  simp only [step, h]

/-- Settles O47: each clause is the reason of the fetch, at the end of the program and beyond it. -/
theorem runEndsAtProgramEnd : Obligations.RunEndsAtProgramEnd := fun _ =>
  ⟨fun hend => step_of_fetch_error (State.fetch_of_pc_eq hend),
    fun hpast => step_of_fetch_error (State.fetch_of_length_lt_pc hpast)⟩

end Sys2Proof.Machine
